-- ==== Sys2Proof/Word.lean ====
section
/-! DEFINITION. The bit-vector types of the block: bytes, 32-bit words, 6-bit symbol values and 24-bit group values
(00_scope.md R7, R10). Everything else the spec counts or names is a natural number or a type of names. -/

namespace Sys2Proof

/-- A byte: a text symbol or a data byte (R7, R11). -/
abbrev Byte := BitVec 8

/-- A 32-bit register or bus data word (R7). -/
abbrev Word := BitVec 32

/-- A 6-bit symbol value, 0 to 63 (R7). -/
abbrev Sym := BitVec 6

/-- A 24-bit group value (R7, R39). -/
abbrev Group := BitVec 24

end Sys2Proof
end

