-- ==== Sys2Proof/Config.lean ====
section
/-! DEFINITION. The parameters of 00_scope.md R8 that an instance of the block fixes, and the free values that the spec
leaves open. LATENCY, the fourth parameter of R8, differs from one command to the next and stands in State.schedule. -/

namespace Sys2Proof

/-- The parameters a model takes as arguments (R8): where the window sits and how large the two buffers are. -/
structure Config where
  /-- BASE: the host address of window offset 0. -/
  base : Nat
  /-- IBUF_SIZE: bytes of input buffer. -/
  ibufSize : Nat
  /-- OBUF_SIZE: bytes of output buffer. -/
  obufSize : Nat
deriving DecidableEq, Repr

/-- The reference configuration of R8, used by 95_test_vectors.md. -/
def Config.reference : Config := { base := 0, ibufSize := 96, obufSize := 192 }

/-- The byte a host read gets where the spec lets it get any byte: "an arbitrary byte, a draw" (R30), "an unspecified byte:
a draw" (R41, R100). The first argument is the number of the draw (State.draws), the second the window offset read.
It has no body: nothing can be proved of its values (log 4). -/
opaque Config.freeByte : Nat → Nat → Byte

end Sys2Proof
end

