-- ==== Sys2Proof/Syntax.lean ====
section
/-! DEFINITION. The commands of the block: one constructor per row of spec/opcode_table.json (30_encoding.md R52). -/

namespace Sys2Proof

/-- A command. A command's word has no operand fields (R53) and its bits 31:2 are ignored: "A decoder reads OP and
nothing else" (R51). So no constructor carries an operand. -/
inductive Instr where
  /-- OP = 1 (R75). -/
  | encode
  /-- OP = 2 (R84). -/
  | decode
  /-- OP = 0, reserved (R102). -/
  | reservedOp0
  /-- OP = 3, reserved (R102). -/
  | reservedOp3
deriving DecidableEq, Repr

end Sys2Proof
end

