-- ==== Sys2Proof/WellFormed.lean ====
section
/-! DEFINITION. What is checked of the model's terms before they mean something: the legal ranges of the parameters
(00_scope.md R8), and commands, of which none is ill formed. -/

namespace Sys2Proof

/-- Every command is well formed: no constructor has an operand that could be out of range (R51, R53). -/
def Instr.wellFormed : Instr → Bool
  | .encode => true
  | .decode => true
  | .reservedOp0 => true
  | .reservedOp3 => true

/-- BASE is "aligned to 0x80000" (R8). -/
def Config.baseOk (c : Config) : Bool := c.base % 0x80000 == 0

/-- IBUF_SIZE is 1 to 65536 (R8). -/
def Config.ibufOk (c : Config) : Bool := decide (1 ≤ c.ibufSize) && decide (c.ibufSize ≤ 65536)

/-- OBUF_SIZE is 1 to 262144 (R8). -/
def Config.obufOk (c : Config) : Bool := decide (1 ≤ c.obufSize) && decide (c.obufSize ≤ 262144)

/-- "OBUF_SIZE >= 6 * ceil(IBUF_SIZE / 3)" (R8). -/
def Config.roomOk (c : Config) : Bool := decide (6 * ((c.ibufSize + 2) / 3) ≤ c.obufSize)

/-- The parameters are in the legal ranges of R8. -/
def Config.wellFormed (c : Config) : Bool := c.baseOk && c.ibufOk && c.obufOk && c.roomOk

end Sys2Proof
end

