-- ==== Sys2Proof/Decode.lean ====
section
/-! DEFINITION. Decoding and encoding the command word (30_encoding.md R51, R52, R54): one format, CMD, of one 32-bit word. -/

namespace Sys2Proof

/-- Why a list of bytes is no command: it is shorter than the one word a command takes (R51). -/
inductive DecodeError where
  /-- Fewer than four bytes, with how many there were. -/
  | truncated (length : Nat)
deriving DecidableEq, Repr

/-- The mask of every row of R52. -/
def opMask : Word := 0x00000003#32

/-- The match values of R52 under `opMask`. Bits 31:2 are ignored (R51, R54). OP has four values and each has a row, so
decoding a word is total. -/
def decodeWord (w : Word) : Instr :=
  if w &&& opMask = 0x00000001#32 then .encode
  else if w &&& opMask = 0x00000002#32 then .decode
  else if w &&& opMask = 0x00000000#32 then .reservedOp0
  else .reservedOp3

/-- The word whose byte lanes, lowest offset first, are the four bytes (little-endian, R38). -/
def wordOfLanes (b0 b1 b2 b3 : Byte) : Word := b3 ++ b2 ++ b1 ++ b0

/-- The byte of lane `k` of a word: `v[8k+7 : 8k]` (R38). -/
def laneOf (w : Word) (k : Nat) : Byte := w.extractLsb' (8 * k) 8

/-- The four byte lanes of a word, lowest offset first (R38). -/
def lanesOf (w : Word) : List Byte := [laneOf w 0, laneOf w 1, laneOf w 2, laneOf w 3]

/-- The command at the head of a list of bytes and the bytes after it. -/
def decodeBytes : List Byte → Except DecodeError (Instr × List Byte)
  | b0 :: b1 :: b2 :: b3 :: rest => .ok (decodeWord (wordOfLanes b0 b1 b2 b3), rest)
  | short => .error (.truncated short.length)

/-- The match word of a command (R52): its OP with every ignored bit 0. -/
def encode : Instr → Word
  | .encode => 0x00000001#32
  | .decode => 0x00000002#32
  | .reservedOp0 => 0x00000000#32
  | .reservedOp3 => 0x00000003#32

/-- The bytes of a command as the bus lays them out. -/
def encodeBytes (i : Instr) : List Byte := lanesOf (encode i)

/-- The 32-bit command word that a table word of `nbits` bits stands for: the bits above `nbits` are 0. -/
def tableWord (nbits w : Nat) : Word := BitVec.ofNat 32 (w % 2 ^ nbits)

/-- What the decoder reads from a row's word, numbered as spec/opcode_table.json numbers its bits. -/
def decodeTableWord (nbits w : Nat) : Option Instr :=
  match decodeBytes (lanesOf (tableWord nbits w)) with
  | .ok (i, _) => some i
  | .error _ => none

end Sys2Proof
end

