-- ==== Sys2Proof/Machine/State.lean ====
section
/-! DEFINITION. The state of the block (10_state.md R15) and of the two agents that drive it (00_scope.md R6), as plain data. -/

namespace Sys2Proof.Machine

/-- CTRL.VARIANT: which alphabet is used (R16). -/
inductive Variant where
  /-- 0 = Standard. -/
  | standard
  /-- 1 = UrlSafe. -/
  | urlSafe
deriving DecidableEq, Repr

/-- STATUS.ERRCODE (R104). The codes 4 to 15 are reserved and never produced, and have no name here (U14). -/
inductive ErrCode where
  /-- 0: no error. -/
  | noError
  /-- 1: LengthError (R105). -/
  | lengthError
  /-- 2: ParamError (R106). -/
  | paramError
  /-- 3: CommandError (R107). -/
  | commandError
deriving DecidableEq, Repr

/-- The stored bits of CTRL (R16). Bits 31:2 are hardwired to 0 (R32) and have no storage. -/
structure Ctrl where
  /-- Bit 0. -/
  variant : Variant
  /-- Bit 1. -/
  padding : Bool
deriving DecidableEq, Repr

/-- The stored bits of STATUS (R20). BUSY is 1 exactly while PEND exists (R28, R95), so it is read from `State.pend` and not
stored a second time (log 8). The reserved bits read 0 and have no storage. -/
structure Status where
  /-- Bit 1, DONE. -/
  done : Bool
  /-- Bit 2, ERR. -/
  err : Bool
  /-- Bits 7:4, ERRCODE. -/
  errcode : ErrCode
deriving DecidableEq, Repr

/-- PEND.op (R28): 1 = ENCODE, 2 = DECODE. -/
inductive Op where
  /-- 1. -/
  | encode
  /-- 2. -/
  | decode
deriving DecidableEq, Repr

/-- PEND, the operands latched at issue (R28). -/
structure Pend where
  /-- From CMD[1:0]. -/
  op : Op
  /-- From CTRL.VARIANT. -/
  variant : Variant
  /-- From CTRL.PADDING. -/
  padding : Bool
  /-- From LINE_LEN. -/
  lineLen : Word
  /-- From IN_LEN. -/
  inLen : Word
deriving DecidableEq, Repr

/-- A byte buffer: the bytes that hold a value, as (index, byte) pairs with indexes strictly rising. A byte that is not listed
holds no value (R30), so a listed pair is never one that an unlisted index reads as. -/
abbrev Memory := List Host.Cell

/-- The canonical form of a buffer: indexes strictly rising. -/
abbrev Memory.wf (m : Memory) : Prop := m.Pairwise (fun a b => a.1 < b.1)

/-- One access of the host, at a host address, of `size` bytes (R12, R56). -/
inductive Access where
  /-- RD8, RD16, RD32, or a read of another size. -/
  | read (addr size : Nat)
  /-- WR8, WR16, WR32, or a write of another size. Lanes beyond the size are not used. -/
  | write (addr size : Nat) (data : Word)
deriving DecidableEq, Repr

/-- What can move the machine next (R6, R58, R118). -/
inductive Event where
  /-- The host makes one access. -/
  | access (a : Access)
  /-- POLL (R58): the host reads STATUS until BUSY = 0. While a command is pending it makes `busyReads` more reads before the
  codec takes its step. -/
  | poll (busyReads : Nat)
  /-- The codec takes its step if it has one. -/
  | codec
  /-- The reset input is asserted. -/
  | reset
deriving DecidableEq, Repr

/-- What the bus answers to one host access. -/
inductive Response where
  /-- The data of a read, in bits 8n-1:0 for a read of n bytes. -/
  | data (v : Word)
  /-- A write completed normally, whether or not it was ignored (R99). -/
  | written
  /-- The BusError outcome of an illegal size or alignment (R37). -/
  | busError
deriving DecidableEq, Repr

/-- The machine. INVENTORY.md lists each field with its rule and its reset value. -/
structure State where
  /-- The parameters of R8. No step changes them. -/
  cfg : Config
  /-- CTRL (R16). -/
  ctrl : Ctrl
  /-- LINE_LEN (R17). -/
  lineLen : Word
  /-- IN_LEN (R18). -/
  inLen : Word
  /-- STATUS but for BUSY (R20). -/
  status : Status
  /-- OUT_LEN (R21). -/
  outLen : Word
  /-- IBUF (R24). -/
  ibuf : Memory
  /-- OBUF (R25). -/
  obuf : Memory
  /-- PEND (R28). STATUS.BUSY is 1 exactly when this is present. -/
  pend : Option Pend
  /-- What moves the machine, the next event first. When it is empty the codec completes a pending command (log 2, log 3). -/
  schedule : List Event
  /-- What the bus answered to the host, the newest first. -/
  responses : List Response
  /-- The model's own: the number of the next free byte (log 4). -/
  draws : Nat
deriving DecidableEq, Repr

/-- The reasons a run can stop with a fault. -/
inductive Fault where
  /-- Raised by the completion of ENCODE or DECODE when a byte of IBUF[0] to IBUF[in_len-1] holds no value (R30, R98). Safe: the
  hardware goes on with some byte, and no claim can rest on it. -/
  | uninitialisedInput
deriving DecidableEq, Repr

/-- The reasons a step can be refused. -/
inductive Refusal where
  /-- Raised by `exec` for a command that has no meaning in the model. Safe. No arm raises it. -/
  | notModelled (mnemonic : String)
  /-- Raised by the bus for an access whose address lies outside the block's window: another target answers it, of which the
  spec says nothing (R33, R48; log 6). Safe. -/
  | outsideWindow
deriving DecidableEq, Repr

/-- The machine right after reset (R31, R119, R120), in the reference configuration of R8 and with nothing scheduled
(log 1, log 2, log 7). -/
def State.reset : State where
  cfg := Config.reference
  ctrl := { variant := .standard, padding := true }
  lineLen := 0#32
  inLen := 0#32
  status := { done := false, err := false, errcode := .noError }
  outLen := 0#32
  ibuf := []
  obuf := []
  pend := none
  schedule := []
  responses := []
  draws := 0

end Sys2Proof.Machine
end

