-- ==== Sys2Proof/Machine/Flags.lean ====
section
/-! DEFINITION. The words the host sees of CTRL and STATUS, and the flags in them (10_state.md R16, R20, R23). -/

namespace Sys2Proof.Machine

/-- STATUS.BUSY: 1 exactly while PEND exists (R28, R95). -/
def busy (s : State) : Bool := s.pend.isSome

/-- A flag as a one-bit number. -/
def bitOf (b : Bool) : Word := if b then 1#32 else 0#32

/-- CTRL.VARIANT as a number: 0 = Standard, 1 = UrlSafe (R16). -/
def variantCode : Variant → Word
  | .standard => 0#32
  | .urlSafe => 1#32

/-- The VARIANT bit as a variant (R16). -/
def variantOfBit (b : Bool) : Variant := if b then .urlSafe else .standard

/-- STATUS.ERRCODE as a number (R104). -/
def errNumber : ErrCode → Word
  | .noError => 0#32
  | .lengthError => 1#32
  | .paramError => 2#32
  | .commandError => 3#32

/-- CTRL as it reads: VARIANT at bit 0, PADDING at bit 1, reserved bits 0 (R16). -/
def ctrlWord (c : Ctrl) : Word := variantCode c.variant ||| bitOf c.padding <<< 1

/-- CTRL as a written word leaves it: bits 31:2 are ignored (R16, R42). -/
def ctrlOfWord (v : Word) : Ctrl := { variant := variantOfBit (v.getLsbD 0), padding := v.getLsbD 1 }

/-- STATUS as it reads: BUSY at bit 0, DONE at 1, ERR at 2, ERRCODE at 7:4, reserved bits 0 (R20). -/
def statusWord (s : State) : Word :=
  bitOf (busy s) ||| bitOf s.status.done <<< 1 ||| bitOf s.status.err <<< 2 ||| errNumber s.status.errcode <<< 4

/-- STATUS with DONE, ERR and ERRCODE clear, as an issue leaves them (R96). -/
def statusClear : Status := { done := false, err := false, errcode := .noError }

/-- STATUS after a completion without error (R98). -/
def statusDone : Status := { done := true, err := false, errcode := .noError }

/-- STATUS after a completion with the error `e` (R97, R98, R110). -/
def statusError (e : ErrCode) : Status := { done := true, err := true, errcode := e }

end Sys2Proof.Machine
end

