-- ==== Sys2Proof/Machine/Ops.lean ====
section
/-! DEFINITION. The named operations over the buffers, the registers and the window (20_memory.md), the entry into an error and
the exit from it (60_exceptions.md R110, R111), completion without error, and the reset event (70_reset_and_hazards.md). -/

namespace Sys2Proof.Machine

/-! ## Buffers -/

/-- The byte at an index, if it holds a value (R30). -/
def memLookup : Memory → Nat → Option Byte
  | [], _ => none
  | (k, b) :: rest, a => if k = a then some b else memLookup rest a

/-- The buffer with the byte at one index set. -/
def memStore : Memory → Nat → Byte → Memory
  | [], a, b => [(a, b)]
  | (k, c) :: rest, a, b =>
    if a < k then (a, b) :: (k, c) :: rest
    else if a = k then (a, b) :: rest
    else (k, c) :: memStore rest a b

/-- The buffer with a list of bytes stored from an index on, `out[k]` at index `a + k` (R43). -/
def memStoreList : Memory → Nat → List Byte → Memory
  | m, _, [] => m
  | m, a, b :: bs => memStoreList (memStore m a b) (a + 1) bs

/-- The `n` bytes from an index on in increasing index order, if every one of them holds a value (R43, R98). -/
def memTake (m : Memory) : Nat → Nat → Option (List Byte)
  | _, 0 => some []
  | a, n + 1 =>
    match memLookup m a, memTake m (a + 1) n with
    | some b, some bs => some (b :: bs)
    | _, _ => none

/-! ## The window (R33 to R36) -/

/-- The window is 2^19 bytes (R33). -/
def windowSize : Nat := 0x80000

/-- Offsets of the registers and the two buffers (R34, R56). -/
def ctrlOffset : Nat := 0x00000
def lineLenOffset : Nat := 0x00004
def inLenOffset : Nat := 0x00008
def cmdOffset : Nat := 0x0000C
def statusOffset : Nat := 0x00010
def outLenOffset : Nat := 0x00014
def ibufOffset : Nat := 0x10000
def reservedOffset : Nat := 0x20000
def obufOffset : Nat := 0x40000

/-- The window appears at host address BASE + offset (R33). `none`: the address is not in this block's window. -/
def windowOffset (c : Config) (addr : Nat) : Option Nat :=
  if c.base ≤ addr ∧ addr < c.base + windowSize then some (addr - c.base) else none

/-- The legal sizes and alignments: 4 bytes at a multiple of 4 in the register space (R35), 1, 2 or 4 bytes at a multiple of the
size in the buffer space (R36). -/
def accessLegal (off size : Nat) : Bool :=
  if off < ibufOffset then size == 4 && off % 4 == 0
  else (size == 1 || size == 2 || size == 4) && off % size == 0

/-! ## Reads (R38, R40 to R42, R100) -/

/-- A register as it reads: reserved bits, reserved offsets and CMD read 0 (R42). -/
def regRead (s : State) (off : Nat) : Word :=
  if off = ctrlOffset then ctrlWord s.ctrl
  else if off = lineLenOffset then s.lineLen
  else if off = inLenOffset then s.inLen
  else if off = cmdOffset then 0#32
  else if off = statusOffset then statusWord s
  else if off = outLenOffset then s.outLen
  else 0#32

/-- A byte of the buffer space as it reads. IBUF bytes read their value (R40) and OBUF bytes theirs while IDLE (R41). A byte with
no value (R30) and an OBUF byte while BUSY (R41, R100) read a free byte. Every other byte reads 0. -/
def bufferByte (s : State) (off : Nat) : Byte :=
  if off < reservedOffset then
    if off - ibufOffset < s.cfg.ibufSize then
      (memLookup s.ibuf (off - ibufOffset)).getD (Config.freeByte s.draws off)
    else 0#8
  else if off < obufOffset then 0#8
  else if off - obufOffset < s.cfg.obufSize then
    if busy s then Config.freeByte s.draws off
    else (memLookup s.obuf (off - obufOffset)).getD (Config.freeByte s.draws off)
  else 0#8

/-- The bytes of `n` consecutive offsets of the buffer space. -/
def bufferBytes (s : State) : Nat → Nat → List Byte
  | _, 0 => []
  | off, n + 1 => bufferByte s off :: bufferBytes s (off + 1) n

/-- The sum of the bytes at their lanes, the first in bits 7:0 (R38). -/
def wordOfBytes : List Byte → Word
  | [] => 0#32
  | b :: bs => b.setWidth 32 ||| wordOfBytes bs <<< 8

/-- MemRead(off, n) for a legal access (R38, R42). -/
def memRead (s : State) (off n : Nat) : Word :=
  if off < ibufOffset then regRead s off else wordOfBytes (bufferBytes s off n)

/-- The next step's free bytes are new ones. -/
def nextDraw (s : State) : State := { s with draws := s.draws + 1 }

/-- What a legal read changes: nothing of the block (R44). A read of OBUF while BUSY is "a fresh draw each time", so it moves on
to the next draw. Other reads do not: "two reads with no step between them return the same value" (log 4). -/
def afterRead (s : State) (off : Nat) : State :=
  if obufOffset ≤ off ∧ off - obufOffset < s.cfg.obufSize ∧ busy s = true then nextDraw s else s

/-! ## Writes (R40 to R42, R99) -/

/-- A write of a register while IDLE: CTRL without its reserved bits, LINE_LEN and IN_LEN store the word (R42). STATUS, OUT_LEN
and reserved offsets ignore it. CMD does not come here while IDLE: its write is an issue (R96). -/
def regWrite (s : State) (off : Nat) (v : Word) : State :=
  if off = ctrlOffset then { s with ctrl := ctrlOfWord v }
  else if off = lineLenOffset then { s with lineLen := v }
  else if off = inLenOffset then { s with inLen := v }
  else s

/-- A write of one byte of the buffer space while IDLE: IBUF stores it (R40), every other byte ignores it (R34, R41). -/
def bufferWriteByte (s : State) (off : Nat) (b : Byte) : State :=
  if off < reservedOffset ∧ off - ibufOffset < s.cfg.ibufSize then
    { s with ibuf := memStore s.ibuf (off - ibufOffset) b }
  else s

/-- The first `n` byte lanes of a word stored from an offset on, each under the rule of its own row (R36, R38). -/
def bufferWrite (s : State) (off : Nat) (v : Word) : Nat → State
  | 0 => s
  | n + 1 => bufferWriteByte (bufferWrite s off v n) (off + n) (laneOf v n)

/-- MemWrite(off, n, v) for a legal access that is not an issue (R42). While BUSY every write is ignored (R99). -/
def memWrite (s : State) (off n : Nat) (v : Word) : State :=
  if busy s then s
  else if off < ibufOffset then regWrite s off v
  else bufferWrite s off v n

/-! ## The bus answers the host -/

/-- The host gets an answer. -/
def respond (r : Response) (s : State) : State := { s with responses := r :: s.responses }

/-! ## Error entry and exit, completion, reset -/

/-- Error entry, the analogue of taking an exception (R97, R110): "sets STATUS.BUSY = 0, DONE = 1, ERR = 1 and ERRCODE to the
code; sets OUT_LEN = 0; writes no byte of OBUF; discards PEND". Nothing else is saved and no control is transferred. -/
def completeError (e : ErrCode) (s : State) : State :=
  { s with status := statusError e, outLen := 0#32, pend := none }

/-- Error exit, the analogue of the return from an exception (R111): the next issue clears DONE, ERR, ERRCODE and OUT_LEN before
it checks anything (R96). -/
def clearResult (s : State) : State := { s with status := statusClear, outLen := 0#32 }

/-- Completion without error (R98): OBUF[k] <- out[k], OUT_LEN <- len(out), BUSY = 0, DONE = 1, ERR = 0, ERRCODE = 0. -/
def completeOk (out : List Byte) (s : State) : State :=
  { s with
    obuf := memStoreList s.obuf 0 out
    outLen := BitVec.ofNat 32 out.length
    status := statusDone
    pend := none }

/-- The reset event (R118 to R120): every register at its value of R31, PEND absent, no byte of IBUF or OBUF with a value. The
parameters, the host's schedule and what the host has read are not the block's and stay. -/
def resetEvent (s : State) : State :=
  { s with
    ctrl := State.reset.ctrl
    lineLen := State.reset.lineLen
    inLen := State.reset.inLen
    status := State.reset.status
    outLen := State.reset.outLen
    ibuf := State.reset.ibuf
    obuf := State.reset.obuf
    pend := State.reset.pend }

end Sys2Proof.Machine
end

