-- ==== Sys2Proof/Machine/Operands.lean ====
section
/-! DEFINITION. The operands of a command (30_encoding.md R53) and the host's notation (R56 to R58). -/

namespace Sys2Proof.Machine

/-! ## Operands of a command -/

/-- PEND as an issue latches it (R53, R96). -/
def latch (op : Op) (s : State) : Pend :=
  { op := op, variant := s.ctrl.variant, padding := s.ctrl.padding, lineLen := s.lineLen, inLen := s.inLen }

/-- The command's input list [IBUF[0], ..., IBUF[in_len - 1]], read at completion (R53, R98). `none`: some byte of it holds no
value. -/
def inputOf (p : Pend) (s : State) : Option (List Byte) := memTake s.ibuf 0 p.inLen.toNat

/-- The command a pending operation belongs to (R28). -/
def opInstr : Op → Instr
  | .encode => .encode
  | .decode => .decode

/-! ## Host notation: offsets are window offsets (R56) -/

/-- WR32. -/
def wr32 (c : Config) (off : Nat) (v : Word) : Event := .access (.write (c.base + off) 4 v)

/-- WR16. -/
def wr16 (c : Config) (off : Nat) (v : Word) : Event := .access (.write (c.base + off) 2 v)

/-- WR8. -/
def wr8 (c : Config) (off : Nat) (v : Word) : Event := .access (.write (c.base + off) 1 v)

/-- RD32. -/
def rd32 (c : Config) (off : Nat) : Event := .access (.read (c.base + off) 4)

/-- RD16. -/
def rd16 (c : Config) (off : Nat) : Event := .access (.read (c.base + off) 2)

/-- RD8. -/
def rd8 (c : Config) (off : Nat) : Event := .access (.read (c.base + off) 1)

/-- ENCODE, DECODE and the reserved words: a 32-bit write of the command's word to CMD (R56). -/
def hostCommand (c : Config) (i : Instr) : Event := wr32 c cmdOffset (Sys2Proof.encode i)

/-- WRBYTES: one WR8 for each byte (R57). -/
def wrBytes (c : Config) : Nat → List Byte → List Event
  | _, [] => []
  | off, b :: bs => wr8 c off (b.setWidth 32) :: wrBytes c (off + 1) bs

/-- The byte of a character: its ASCII code (R11) for a character below 0x80, and the byte 0xHH for the character U+00HH, as the
notation `\xHH` of 95_test_vectors.md writes it. DESIGN CHOICE, unsafe: a character above U+00FF, to which the spec gives no
byte, has its code modulo 256. It is not for such characters: a host sends them as UTF-8 bytes, with `wrBytes` (log 12). -/
def asciiByte (ch : Char) : Byte := BitVec.ofNat 8 ch.toNat

/-- WRSTR, with the text as its list of characters (R57), each one byte: for characters up to U+00FF only (log 12). -/
def wrStr (c : Config) (off : Nat) (text : List Char) : List Event := wrBytes c off (text.map asciiByte)

end Sys2Proof.Machine
end

