-- ==== Sys2Proof/Machine/Alphabet.lean ====
section
/-! DEFINITION. alphabet_lookup (40_alphabet_lookup.md R59 to R66): the FWD and REV tables and the kept-symbol class. -/

namespace Sys2Proof.Machine

/-- The symbols at positions 0 to 25, `A` to `Z` (R59). -/
def upperSymbols : List Byte :=
  [0x41, 0x42, 0x43, 0x44, 0x45, 0x46, 0x47, 0x48, 0x49, 0x4A, 0x4B, 0x4C, 0x4D,
   0x4E, 0x4F, 0x50, 0x51, 0x52, 0x53, 0x54, 0x55, 0x56, 0x57, 0x58, 0x59, 0x5A]

/-- The symbols at positions 26 to 51, `a` to `z` (R59). -/
def lowerSymbols : List Byte :=
  [0x61, 0x62, 0x63, 0x64, 0x65, 0x66, 0x67, 0x68, 0x69, 0x6A, 0x6B, 0x6C, 0x6D,
   0x6E, 0x6F, 0x70, 0x71, 0x72, 0x73, 0x74, 0x75, 0x76, 0x77, 0x78, 0x79, 0x7A]

/-- The symbols at positions 52 to 61, `0` to `9` (R59). -/
def digitSymbols : List Byte := [0x30, 0x31, 0x32, 0x33, 0x34, 0x35, 0x36, 0x37, 0x38, 0x39]

/-- The symbols at positions 62 and 63: `+` `/` or `-` `_` (R59). -/
def lastSymbols : Variant → List Byte
  | .standard => [0x2B, 0x2F]
  | .urlSafe => [0x2D, 0x5F]

/-- FWD[v], 64 symbol bytes (R26, R59). -/
def fwdRom (v : Variant) : List Byte := upperSymbols ++ lowerSymbols ++ digitSymbols ++ lastSymbols v

/-- `fwd(v, i)` (R59). -/
def fwd (v : Variant) (i : Sym) : Byte := (fwdRom v).getD i.toNat 0#8

/-- An entry of REV: a valid bit and a 6-bit value (R27). -/
structure RevEntry where
  valid : Bool
  value : Sym
deriving DecidableEq, Repr

/-- A valid entry of REV. -/
def revSome (value : Nat) : RevEntry := { valid := true, value := BitVec.ofNat 6 value }

/-- An invalid entry of REV has value 0 (R27). -/
def revNone : RevEntry := { valid := false, value := 0#6 }

/-- The entries of REV outside the letters and digits (R62). -/
def revLast (v : Variant) (c : Nat) : RevEntry :=
  match v with
  | .standard => if c = 0x2B then revSome 62 else if c = 0x2F then revSome 63 else revNone
  | .urlSafe => if c = 0x2D then revSome 62 else if c = 0x5F then revSome 63 else revNone

/-- REV[v][c], in the ranges of R62. -/
def revRom (v : Variant) (c : Byte) : RevEntry :=
  if 0x41 ≤ c.toNat ∧ c.toNat ≤ 0x5A then revSome (c.toNat - 0x41)
  else if 0x61 ≤ c.toNat ∧ c.toNat ≤ 0x7A then revSome (c.toNat - 0x61 + 26)
  else if 0x30 ≤ c.toNat ∧ c.toNat ≤ 0x39 then revSome (c.toNat - 0x30 + 52)
  else revLast v c.toNat

/-- `rev(v, c)`: `some` of the entry's value if it is valid, else `none` (R27, R61). -/
def rev (v : Variant) (c : Byte) : Option Sym :=
  if (revRom v c).valid then some (revRom v c).value else none

/-- The padding symbol `=` (R11, R63). -/
def padSymbol : Byte := 0x3D#8

/-- `is_kept(v, c)`: an alphabet symbol of the variant or `=` (R64). -/
def isKept (v : Variant) (c : Byte) : Bool := (rev v c).isSome || c == padSymbol

end Sys2Proof.Machine
end

