-- ==== Sys2Proof/Machine/Padding.lean ====
section
/-! DEFINITION. padding_control (41_padding_control.md R67 to R74). -/

namespace Sys2Proof.Machine

/-- An entry of a tail's plan (R67): `D(k)`, the symbol of slice `k`, or `PAD`, the symbol `=`. -/
inductive TailEntry where
  | data (slice : Nat)
  | pad
deriving DecidableEq, Repr

/-- `tail_symbols(r, pad)` (R68). -/
def tailSymbols (r : Nat) (pad : Bool) : List TailEntry :=
  [.data 0, .data 1]
    ++ (if r = 2 then [.data 2] else if pad then [.pad] else [])
    ++ (if pad then [.pad] else [])

/-- `length_ok(pad, L)` (R70). -/
def lengthOk (pad : Bool) (len : Nat) : Bool := !pad || len % 4 == 0

/-- `pad_count(pad, s)` (R71): the trailing `=`, at most two. `s` reversed begins with the last symbol. -/
def padCount (pad : Bool) (s : List Byte) : Nat :=
  if !pad then 0
  else
    match s.reverse with
    | last :: before :: _ =>
      if last = padSymbol ∧ before = padSymbol then 2 else if last = padSymbol then 1 else 0
    | [last] => if last = padSymbol then 1 else 0
    | [] => 0

/-- `out_len(pad, s)` (R72). -/
def outLenOf (pad : Bool) (s : List Byte) : Nat := 3 * s.length / 4 - padCount pad s

end Sys2Proof.Machine
end

