-- ==== Sys2Proof/Machine/Sequencer.lean ====
section
/-! DEFINITION. The command sequencer (44_command_sequencer.md): issue, completion and the reserved commands.
A command moves the machine twice: at its issue, while IDLE, and at its completion, while it is the pending command (R95). The
meaning of a command at a state is the one of the two that the state calls for (log 5). -/

namespace Sys2Proof.Machine

/-- What a command's transform ends with (R98). -/
inductive CmdResult where
  | ok (out : List Byte)
  | error (e : ErrCode)
deriving DecidableEq, Repr

/-- Issue of ENCODE or DECODE while IDLE (R96): clear the previous result, then ParamError if IN_LEN > IBUF_SIZE (R106), else
latch the operands in PEND, which makes BUSY 1. -/
def issue (op : Op) (s : State) : State :=
  if s.cfg.ibufSize < s.inLen.toNat then completeError .paramError (clearResult s)
  else { clearResult s with pend := some (latch op s) }

/-- The result of a command's transform put into the state (R98). -/
def finish (r : CmdResult) (s : State) : State :=
  match r with
  | .ok out => completeOk out s
  | .error e => completeError e s

/-- Completion of the pending command (R98): one atomic step. -/
def complete (transform : Pend → List Byte → CmdResult) (p : Pend) (s : State) :
    Host.Outcome State Fault Refusal :=
  match inputOf p s with
  | none => .fault .uninitialisedInput
  | some d => .next (finish (transform p d) s)

/-- The step of the command of operation `op` that the state calls for: its issue while IDLE, its completion while it is
pending. While the other command is pending its word is a CMD write that is ignored (R99). -/
def commandStep (op : Op) (transform : Pend → List Byte → CmdResult) (s : State) :
    Host.Outcome State Fault Refusal :=
  match s.pend with
  | none => .next (issue op s)
  | some p => if p.op = op then complete transform p s else .next s

/-- A reserved word (R102): CommandError at issue. While BUSY it is "ignored like any CMD write then". -/
def reservedStep (s : State) : State :=
  match s.pend with
  | none => completeError .commandError (clearResult s)
  | some _ => s

/-- RESERVED_OP0 (R102). -/
def execReservedOp0 (s : State) : Host.Outcome State Fault Refusal := .next (reservedStep s)

/-- RESERVED_OP3 (R102). -/
def execReservedOp3 (s : State) : Host.Outcome State Fault Refusal := .next (reservedStep s)

end Sys2Proof.Machine
end

