-- ==== Sys2Proof/Machine/Bus.lean ====
section
/-! DEFINITION. What moves the machine next (00_scope.md R6): the host's accesses (20_memory.md R37 to R42, 44_command_sequencer.md
R96, R99, R100), POLL (30_encoding.md R58), the codec's turn (R98) and the reset event (R118). Step.lean only runs what
`nextAction` answers. -/

namespace Sys2Proof.Machine

/-- What a step is. -/
inductive Action where
  /-- The step runs no command and ends in this state. -/
  | settled (s : State)
  /-- The step runs a command from this state: its issue if the state is IDLE, its completion if it is BUSY. -/
  | command (i : Instr) (s : State)
  /-- The step is refused. -/
  | refused (r : Refusal)
deriving DecidableEq, Repr

/-- A host read at a window offset (R37, R38, R44). -/
def hostRead (off size : Nat) (s : State) : State :=
  if accessLegal off size then respond (.data (memRead s off size)) (afterRead s off)
  else respond .busError s

/-- A host write at a window offset (R37, R42). A legal write of CMD while IDLE issues the command that the word decodes to
(R96). While BUSY it "is not decoded at all" (R54), and is ignored like every other write (R99). -/
def hostWrite (off size : Nat) (v : Word) (s : State) : Action :=
  if accessLegal off size then
    if off = cmdOffset ∧ busy s = false then
      .command (decodeWord v) (nextDraw (respond .written s))
    else .settled (nextDraw (respond .written (memWrite s off size v)))
  else .settled (respond .busError s)

/-- A host access at a host address (R33). -/
def hostAccess (a : Access) (s : State) : Action :=
  match a with
  | .read addr size =>
    match windowOffset s.cfg addr with
    | some off => .settled (hostRead off size s)
    | none => .refused .outsideWindow
  | .write addr size v =>
    match windowOffset s.cfg addr with
    | some off => hostWrite off size v s
    | none => .refused .outsideWindow

/-- The codec's turn (R6, R98): it completes the pending command, and has no step while there is none. -/
def codecTurn (s : State) : Action :=
  match s.pend with
  | some p => .command (opInstr p.op) (nextDraw s)
  | none => .settled s

/-- POLL (R58). A read that returns BUSY = 0 ends it. While BUSY, `n + 1` means a read that is followed by more reads, and 0 the
codec's step, after which the next read ends the loop. -/
def pollTurn (busyReads : Nat) (rest : List Event) (s : State) : Action :=
  match s.pend, busyReads with
  | none, _ => .settled (hostRead statusOffset 4 { s with schedule := rest })
  | some _, n + 1 => .settled (hostRead statusOffset 4 { s with schedule := .poll n :: rest })
  | some _, 0 => codecTurn s

/-- What the next step is. With nothing scheduled only the codec can step (R101), and an IDLE block "holds its state
indefinitely" (R116). -/
def nextAction (s : State) : Action :=
  match s.schedule with
  | [] => codecTurn s
  | .access a :: rest => hostAccess a { s with schedule := rest }
  | .poll n :: rest => pollTurn n rest s
  | .codec :: rest => codecTurn { s with schedule := rest }
  | .reset :: rest => .settled (nextDraw (resetEvent { s with schedule := rest }))

/-- The host's access that issues a command word. -/
def fetchEvent (s : State) (w : Word) : Event := wr32 s.cfg cmdOffset w

/-- IDLE, as an issue needs it: a pending command is dropped. An IDLE state is itself. -/
def idle (s : State) : State := { s with pend := none }

end Sys2Proof.Machine
end

