-- ==== Sys2Proof/Machine/Decoder.lean ====
section
/-! DEFINITION. base64_decoder (43_base64_decoder.md R84 to R93): DECODE. -/

namespace Sys2Proof.Machine

/-- Sanitize, step 1: the kept bytes in their order (R85). -/
def sanitize (v : Variant) (t : List Byte) : List Byte := t.filter (isKept v)

/-- `val(c)`: the symbol's value, 0 where there is none (R88). -/
def symbolValue (v : Variant) (c : Byte) : Sym := (rev v c).getD 0#6

/-- The 24-bit value of a group, the first symbol most significant (R39, R90). -/
def packSymbols (u0 u1 u2 u3 : Sym) : Group :=
  u0.setWidth 24 <<< 18 ||| u1.setWidth 24 <<< 12 ||| u2.setWidth 24 <<< 6 ||| u3.setWidth 24

/-- The three bytes of a group: `w[23:16]`, `w[15:8]`, `w[7:0]` (R90). -/
def unpackGroup (u0 u1 u2 u3 : Sym) : List Byte :=
  let w := packSymbols u0 u1 u2 u3
  [w.extractLsb' 16 8, w.extractLsb' 8 8, w.extractLsb' 0 8]

/-- Unpack, step 4: consecutive groups of 4 symbols (R89, R90). The missing positions of a partial group have value 0 (R89). -/
def unpack (v : Variant) : List Byte → List Byte
  | c0 :: c1 :: c2 :: c3 :: rest =>
    unpackGroup (symbolValue v c0) (symbolValue v c1) (symbolValue v c2) (symbolValue v c3) ++ unpack v rest
  | [c0, c1, c2] => unpackGroup (symbolValue v c0) (symbolValue v c1) (symbolValue v c2) 0#6
  | [c0, c1] => unpackGroup (symbolValue v c0) (symbolValue v c1) 0#6 0#6
  | [c0] => unpackGroup (symbolValue v c0) 0#6 0#6 0#6
  | [] => []

/-- `decode(v, pad, t)` (R84): sanitize, check the length (R86), size (R87), unpack, truncate (R91). -/
def decodeText (v : Variant) (pad : Bool) (t : List Byte) : CmdResult :=
  let s := sanitize v t
  if lengthOk pad s.length then .ok ((unpack v s).take (outLenOf pad s)) else .error .lengthError

/-- The transform of DECODE on its latched operands. LINE_LEN is not one of them (R84). -/
def decodeTransform (p : Pend) (t : List Byte) : CmdResult := decodeText p.variant p.padding t

/-- DECODE (R84, R96, R98). -/
def execDecode (s : State) : Host.Outcome State Fault Refusal := commandStep .decode decodeTransform s

end Sys2Proof.Machine
end

