-- ==== Sys2Proof/Machine/Encoder.lean ====
section
/-! DEFINITION. base64_encoder (42_base64_encoder.md R75 to R83): ENCODE. -/

namespace Sys2Proof.Machine

/-- The line terminator CR LF (R11). -/
def crlf : List Byte := [0x0D#8, 0x0A#8]

/-- The 24-bit value of a full group, the first byte most significant (R39, R76). -/
def packBytes (b0 b1 b2 : Byte) : Group :=
  b0.setWidth 24 <<< 16 ||| b1.setWidth 24 <<< 8 ||| b2.setWidth 24

/-- Slice `j` of a group value: `w[23-6j : 18-6j]` (R76, R79). -/
def slice (w : Group) (j : Nat) : Sym := w.extractLsb' (18 - 6 * j) 6

/-- `encode_group(v, b0, b1, b2)` (R76). -/
def encodeGroup (v : Variant) (b0 b1 b2 : Byte) : List Byte :=
  let w := packBytes b0 b1 b2
  [fwd v (slice w 0), fwd v (slice w 1), fwd v (slice w 2), fwd v (slice w 3)]

/-- The full groups in input order, with the terminators of the line-wrap rule (R77, R78). `count` is the number of symbols on
the current line. Bytes short of a full group are left for the tail. -/
def encodeGroups (v : Variant) (ll : Nat) : Nat → List Byte → List Byte
  | count, b0 :: b1 :: b2 :: rest =>
    encodeGroup v b0 b1 b2 ++
      (if 0 < ll then
        if ll ≤ count + 4 then crlf ++ encodeGroups v ll 0 rest
        else encodeGroups v ll (count + 4) rest
      else encodeGroups v ll count rest)
  | _, _ => []

/-- The tail: the bytes after the last full group (R77). -/
def tailOf : List Byte → List Byte
  | _ :: _ :: _ :: rest => tailOf rest
  | tail => tail

/-- The symbols of a tail of `r` bytes with left-justified value `w` (R79). -/
def encodeTail (v : Variant) (pad : Bool) (r : Nat) (w : Group) : List Byte :=
  (tailSymbols r pad).map fun e =>
    match e with
    | .data j => fwd v (slice w j)
    | .pad => padSymbol

/-- Does the text end in a line terminator (R75)? -/
def endsWithCrlf (out : List Byte) : Bool := crlf.isSuffixOf out

/-- The tail line terminator (R80). -/
def closeLine (ll : Nat) (out : List Byte) : List Byte :=
  if 0 < ll ∧ endsWithCrlf out = false then out ++ crlf else out

/-- `encode(v, pad, LL, d)` (R75). -/
def encodeText (v : Variant) (pad : Bool) (ll : Nat) (d : List Byte) : List Byte :=
  let out := encodeGroups v ll 0 d
  match tailOf d with
  | [] => out
  | [b0] => closeLine ll (out ++ encodeTail v pad 1 (packBytes b0 0#8 0#8))
  | b0 :: b1 :: _ => closeLine ll (out ++ encodeTail v pad 2 (packBytes b0 b1 0#8))

/-- The transform of ENCODE on its latched operands. It raises no error (R75). -/
def encodeTransform (p : Pend) (d : List Byte) : CmdResult :=
  .ok (encodeText p.variant p.padding p.lineLen.toNat d)

/-- ENCODE (R75, R96, R98). -/
def execEncode (s : State) : Host.Outcome State Fault Refusal := commandStep .encode encodeTransform s

end Sys2Proof.Machine
end

