-- ==== Sys2Proof/Machine/Dispatch.lean ====
section
/-! DEFINITION. The meaning of each command, one arm per row of spec/opcode_table.json. -/

namespace Sys2Proof.Machine

/-- The step of command `i` that state `s` calls for (R95, R96, R98). -/
def exec (i : Instr) (s : State) : Host.Outcome State Fault Refusal :=
  match i with
  | .encode => Sys2Proof.Machine.execEncode s
  | .decode => Sys2Proof.Machine.execDecode s
  | .reservedOp0 => Sys2Proof.Machine.execReservedOp0 s
  | .reservedOp3 => Sys2Proof.Machine.execReservedOp3 s

end Sys2Proof.Machine
end

