-- ==== Sys2Proof/Machine/Step.lean ====
section
/-! DEFINITION. One step of the machine (00_scope.md R6). -/

namespace Sys2Proof.Machine

/-- One step: what `nextAction` answers, with a command run by `exec`. -/
def step (s : State) : Host.Outcome State Fault Refusal :=
  match nextAction s with
  | .settled t => .next t
  | .command i t => exec i t
  | .refused r => .refused r

/-- The state whose next step issues the command word `w`: the block fetches no instruction (R49), so the host's write of the word
to CMD is placed at the head of the schedule, and the state is made IDLE (log 7). -/
def State.withFetchWord (s : State) (nbits w : Nat) : State :=
  { idle s with schedule := fetchEvent s (tableWord nbits w) :: s.schedule }

end Sys2Proof.Machine
end

