-- ==== Sys2Proof/Safety.lean ====
section
/-! DEFINITION. The terms in which claims about the block are stated: its invariant, what it means that one state's block is as
another's, and what a list of bytes in a buffer is. -/

namespace Sys2Proof.Machine

/-- The bytes `bs` stand in the buffer from index `a` on. -/
def Holds (m : Memory) (a : Nat) (bs : List Byte) : Prop := ∀ k, k < bs.length → memLookup m (a + k) = bs[k]?

/-- The values STATUS can read (R20): after reset, busy, done without error, LengthError, ParamError, CommandError. -/
def statusReachable : List Word := [0x00#32, 0x01#32, 0x02#32, 0x16#32, 0x26#32, 0x36#32]

/-- The largest number of bytes a command writes: `6 * ceil(IBUF_SIZE / 3)` (R8, R21). -/
def outLenMax (c : Config) : Nat := 6 * ((c.ibufSize + 2) / 3)

/-- What every state reached from reset satisfies and every step keeps. -/
structure Inv (s : State) : Prop where
  /-- The parameters are legal (R8). -/
  config : s.cfg.wellFormed = true
  /-- IBUF is in canonical form. -/
  ibuf_wf : Memory.wf s.ibuf
  /-- OBUF is in canonical form. -/
  obuf_wf : Memory.wf s.obuf
  /-- IBUF has IBUF_SIZE bytes (R24). -/
  ibuf_bound : ∀ c ∈ s.ibuf, c.1 < s.cfg.ibufSize
  /-- OBUF has OBUF_SIZE bytes (R25). -/
  obuf_bound : ∀ c ∈ s.obuf, c.1 < s.cfg.obufSize
  /-- STATUS reads one of its reachable values (R20). -/
  status_reachable : statusWord s ∈ statusReachable
  /-- OUT_LEN is 0 while BUSY (R21). -/
  busy_outLen : busy s = true → s.outLen = 0#32
  /-- OUT_LEN is 0 after an error completion (R21). -/
  err_outLen : s.status.err = true → s.outLen = 0#32
  /-- OUT_LEN is at most its largest value (R21). -/
  outLen_bound : s.outLen.toNat ≤ outLenMax s.cfg
  /-- Every byte OUT_LEN counts holds a value (R21, R25). -/
  out_held : ∀ j, j < s.outLen.toNat → (memLookup s.obuf j).isSome = true
  /-- PEND holds the operands as the registers still hold them (R49, R99, R100). -/
  latched : ∀ p, s.pend = some p → p = latch p.op s
  /-- A pending command's in_len is at most IBUF_SIZE (R28). -/
  pend_inLen : ∀ p, s.pend = some p → p.inLen.toNat ≤ s.cfg.ibufSize

/-- The block's state is the same in both: every register, buffer and hidden record of R15, and the parameters of R8. -/
structure SameBlock (s t : State) : Prop where
  cfg : t.cfg = s.cfg
  ctrl : t.ctrl = s.ctrl
  lineLen : t.lineLen = s.lineLen
  inLen : t.inLen = s.inLen
  status : t.status = s.status
  outLen : t.outLen = s.outLen
  ibuf : t.ibuf = s.ibuf
  obuf : t.obuf = s.obuf
  pend : t.pend = s.pend

/-- What the host and the environment hold is the same in both: the parameters, the schedule, the answers and the number of
draws. -/
structure SameHost (s t : State) : Prop where
  cfg : t.cfg = s.cfg
  schedule : t.schedule = s.schedule
  responses : t.responses = s.responses
  draws : t.draws = s.draws

end Sys2Proof.Machine
end

