-- ==== Sys2Proof/Certificates/Slice0/Obligations.lean ====
section
/-! DEFINITION. The statements for the provers. Each says which rule of spec/ it formalises, or that it rests on a choice of the
model and the log entry that names the choice. -/

open Sys2Proof Sys2Proof.Machine Host

/-! ## Commands: decoding, encoding, and what a step runs -/

/-- Words written out bit by bit from 30_encoding.md R52, with bits 31:2 zero and with bits 31:2 one (R51). -/
def Obligations.WrittenOutWordsDecode : Prop :=
  decodeWord 0b00000000000000000000000000000001#32 = .encode ∧
  decodeWord 0b00000000000000000000000000000010#32 = .decode ∧
  decodeWord 0b00000000000000000000000000000000#32 = .reservedOp0 ∧
  decodeWord 0b00000000000000000000000000000011#32 = .reservedOp3 ∧
  decodeWord 0b11111111111111111111111111111101#32 = .encode ∧
  decodeWord 0b11111111111111111111111111111110#32 = .decode ∧
  decodeWord 0b11111111111111111111111111111100#32 = .reservedOp0 ∧
  decodeWord 0b11111111111111111111111111111111#32 = .reservedOp3

/-- R52: the four OP values, and the match of each row under the mask 3. -/
def Obligations.OpValuesNameTheCommands : Prop :=
  ∀ w : Word,
    (decodeWord w = .reservedOp0 ↔ w.toNat % 4 = 0) ∧ (w.toNat % 4 = 0 ↔ w &&& 0x00000003#32 = 0x00000000#32) ∧
    (decodeWord w = .encode ↔ w.toNat % 4 = 1) ∧ (w.toNat % 4 = 1 ↔ w &&& 0x00000003#32 = 0x00000001#32) ∧
    (decodeWord w = .decode ↔ w.toNat % 4 = 2) ∧ (w.toNat % 4 = 2 ↔ w &&& 0x00000003#32 = 0x00000002#32) ∧
    (decodeWord w = .reservedOp3 ↔ w.toNat % 4 = 3) ∧ (w.toNat % 4 = 3 ↔ w &&& 0x00000003#32 = 0x00000003#32)

/-- Decode and encode agree for every command, under every value of the ignored bits (R51), with any bytes after it. The row's
table word decodes alike, and fewer than four bytes are rejected by name. -/
def Obligations.DecodeOfEncodeIsTheCommand : Prop :=
  (∀ (i : Instr) (ign : BitVec 30) (rest : List Byte), i.wellFormed = true →
    decodeBytes (lanesOf (encode i ||| (ign ++ 0#2)) ++ rest) = .ok (i, rest) ∧
    decodeTableWord 32 (encode i ||| (ign ++ 0#2)).toNat = some i) ∧
  (∀ i : Instr, decodeBytes (encodeBytes i) = .ok (i, [])) ∧
  (∀ bs : List Byte, bs.length < 4 → decodeBytes bs = .error (.truncated bs.length))

/-- A step runs the decoded command: the host's write of a word to CMD while IDLE is `exec` of the command its byte lanes decode
to, at the state with the event taken, the write answered and the draw moved on (log 2, log 4, log 5). -/
def Obligations.CommandWriteStepIsExec : Prop :=
  ∀ (s : State) (w : Word) (i : Instr) (rest : List Event),
    s.schedule = .access (.write (s.cfg.base + 0x0000C) 4 w) :: rest → s.pend = none →
    decodeBytes (lanesOf w) = .ok (i, []) →
    step s = exec i { s with schedule := rest, responses := .written :: s.responses, draws := s.draws + 1 }

/-- A step completes the pending command: the codec's turn is `exec` of the pending command, when the schedule gives it the turn,
when a POLL waits for it, and when nothing else is scheduled (log 2, log 3, log 5). -/
def Obligations.CodecTurnStepIsExec : Prop :=
  ∀ (s : State) (p : Pend) (rest : List Event), s.pend = some p →
    (s.schedule = [] → step s = exec (opInstr p.op) { s with draws := s.draws + 1 }) ∧
    (s.schedule = .codec :: rest →
      step s = exec (opInstr p.op) { s with schedule := rest, draws := s.draws + 1 }) ∧
    (s.schedule = .poll 0 :: rest → step s = exec (opInstr p.op) { s with draws := s.draws + 1 })

/-- The word placed where the next command is taken from is the one the next step runs (log 7). -/
def Obligations.FetchWordStepIsExec : Prop :=
  ∀ (s : State) (nbits w : Nat) (i : Instr), decodeTableWord nbits w = some i →
    step (s.withFetchWord nbits w) =
      exec i { s with pend := none, responses := .written :: s.responses, draws := s.draws + 1 }

/-! ## Issue -/

/-- Issue of ENCODE and DECODE that passes its checks (log 5 for the form of `exec`): the operands are latched, the previous
result is cleared, STATUS reads 1, and nothing else changes. -/
def Obligations.EncodeDecodeIssueLatches : Prop :=
  ∀ s : State, s.pend = none → s.inLen.toNat ≤ s.cfg.ibufSize →
    (∃ t, exec .encode s = .next t ∧ statusWord t = 0x00000001#32 ∧
      t = { s with
            status := { done := false, err := false, errcode := .noError }, outLen := 0#32,
            pend := some { op := .encode, variant := s.ctrl.variant, padding := s.ctrl.padding,
                           lineLen := s.lineLen, inLen := s.inLen } }) ∧
    (∃ t, exec .decode s = .next t ∧ statusWord t = 0x00000001#32 ∧
      t = { s with
            status := { done := false, err := false, errcode := .noError }, outLen := 0#32,
            pend := some { op := .decode, variant := s.ctrl.variant, padding := s.ctrl.padding,
                           lineLen := s.lineLen, inLen := s.inLen } })

/-- R96, whole: a 32-bit write of a word to CMD while BUSY = 0 clears the previous result, then ends with CommandError, ends with
ParamError, or latches PEND. OBUF is not touched. -/
def Obligations.CmdWriteWhileIdleIssues : Prop :=
  ∀ (s : State) (w : Word) (rest : List Event),
    s.schedule = .access (.write (s.cfg.base + 0x0000C) 4 w) :: rest → s.pend = none →
    ∃ t, step s = .next t ∧ t.obuf = s.obuf ∧ t.ibuf = s.ibuf ∧ t.cfg = s.cfg ∧ t.ctrl = s.ctrl ∧ t.lineLen = s.lineLen ∧
      t.inLen = s.inLen ∧ t.schedule = rest ∧ t.responses = .written :: s.responses ∧ t.outLen = 0#32 ∧
      (if w.toNat % 4 = 0 ∨ w.toNat % 4 = 3 then
        t.status = { done := true, err := true, errcode := .commandError } ∧ t.pend = none
      else if s.cfg.ibufSize < s.inLen.toNat then
        t.status = { done := true, err := true, errcode := .paramError } ∧ t.pend = none
      else
        t.status = { done := false, err := false, errcode := .noError } ∧
        t.pend = some { op := if w.toNat % 4 = 1 then .encode else .decode, variant := s.ctrl.variant,
                        padding := s.ctrl.padding, lineLen := s.lineLen, inLen := s.inLen })

/-- R106: ParamError at issue exactly when IN_LEN > IBUF_SIZE, with IN_LEN = IBUF_SIZE legal. -/
def Obligations.ParamErrorWhenInLenExceedsIbuf : Prop :=
  ∀ (s : State) (i : Instr), i = .encode ∨ i = .decode → s.pend = none →
    ∃ t, exec i s = .next t ∧
      (t.status.errcode = .paramError ↔ s.cfg.ibufSize < s.inLen.toNat) ∧
      (s.cfg.ibufSize < s.inLen.toNat →
        statusWord t = 0x00000026#32 ∧
        t = { s with status := { done := true, err := true, errcode := .paramError }, outLen := 0#32, pend := none }) ∧
      (s.inLen.toNat = s.cfg.ibufSize → statusWord t = 0x00000001#32)

/-- R107: CommandError at issue when CMD[1:0] is 0 or 3, whatever IN_LEN and bits 31:2 hold (R102). Nothing but STATUS and
OUT_LEN changes. This is the whole effect of the two reserved commands, on every IDLE state. -/
def Obligations.ReservedCommandsEndWithCommandError : Prop :=
  ∀ s : State, s.pend = none →
    exec .reservedOp0 s =
      .next { s with status := { done := true, err := true, errcode := .commandError }, outLen := 0#32, pend := none } ∧
    exec .reservedOp3 s =
      .next { s with status := { done := true, err := true, errcode := .commandError }, outLen := 0#32, pend := none } ∧
    (∀ w : Word, w.toNat % 4 = 0 ∨ w.toNat % 4 = 3 →
      ∃ t, exec (decodeWord w) s = .next t ∧ t.status.errcode = .commandError ∧ statusWord t = 0x00000036#32)

/-! ## Completion -/

/-- Completion of ENCODE: IBUF[0..in_len-1] is the input, OBUF[0..len-1] the text, OUT_LEN its length, STATUS reads 2, and every
other byte and register is as before (R75, R83, R98). -/
def Obligations.EncodeCompletesWithItsText : Prop :=
  ∀ (s : State) (p : Pend) (d : List Byte), Inv s → s.pend = some p → p.op = .encode →
    d.length = p.inLen.toNat → Holds s.ibuf 0 d →
    ∃ t, exec .encode s = .next t ∧
      Holds t.obuf 0 (encodeText p.variant p.padding p.lineLen.toNat d) ∧
      t.outLen.toNat = (encodeText p.variant p.padding p.lineLen.toNat d).length ∧
      (∀ j, (encodeText p.variant p.padding p.lineLen.toNat d).length ≤ j → memLookup t.obuf j = memLookup s.obuf j) ∧
      t.outLen.toNat ≤ s.cfg.obufSize ∧ statusWord t = 0x00000002#32 ∧ t.pend = none ∧
      t.ctrl = s.ctrl ∧ t.lineLen = s.lineLen ∧ t.inLen = s.inLen ∧ t.ibuf = s.ibuf ∧ SameHost s t

/-- R92: on success the result of DECODE is in OBUF[0..m-1] and OUT_LEN = m, the bytes above keep their values, and the result
always fits. The result is the first m bytes of the unpacked groups (R84). -/
def Obligations.DecodeCompletesWithItsBytes : Prop :=
  ∀ (s : State) (p : Pend) (d : List Byte), Inv s → s.pend = some p → p.op = .decode →
    d.length = p.inLen.toNat → Holds s.ibuf 0 d →
    (p.padding = false ∨ (sanitize p.variant d).length % 4 = 0) →
    ∃ t, exec .decode s = .next t ∧
      Holds t.obuf 0
        ((unpack p.variant (sanitize p.variant d)).take (outLenOf p.padding (sanitize p.variant d))) ∧
      t.outLen.toNat = outLenOf p.padding (sanitize p.variant d) ∧
      (∀ j, outLenOf p.padding (sanitize p.variant d) ≤ j → memLookup t.obuf j = memLookup s.obuf j) ∧
      t.outLen.toNat ≤ p.inLen.toNat ∧ t.outLen.toNat ≤ s.cfg.obufSize ∧ statusWord t = 0x00000002#32 ∧ t.pend = none ∧
      t.ctrl = s.ctrl ∧ t.lineLen = s.lineLen ∧ t.inLen = s.inLen ∧ t.ibuf = s.ibuf ∧ SameHost s t

/-- R105: a completion raises LengthError if and only if the command is DECODE, PADDING was latched as 1 and the sanitized length
is not a multiple of 4. -/
def Obligations.LengthErrorExactly : Prop :=
  ∀ (s : State) (p : Pend) (d : List Byte), s.pend = some p → d.length = p.inLen.toNat → Holds s.ibuf 0 d →
    ∃ t, exec (opInstr p.op) s = .next t ∧
      (t.status.errcode = .lengthError ↔
        p.op = .decode ∧ p.padding = true ∧ (sanitize p.variant d).length % 4 ≠ 0) ∧
      (t.status.errcode = .lengthError → statusWord t = 0x00000016#32 ∧
        t = { s with status := { done := true, err := true, errcode := .lengthError }, outLen := 0#32, pend := none }) ∧
      (t.status.errcode ≠ .lengthError → statusWord t = 0x00000002#32)

/-- The model fault of R30 and R98: a completion stops with UninitialisedInput if and only if some byte of
IBUF[0..in_len-1] holds no value. -/
def Obligations.UnwrittenInputFaults : Prop :=
  ∀ (s : State) (p : Pend), s.pend = some p →
    (exec (opInstr p.op) s = .fault .uninitialisedInput ↔ ∃ i, i < p.inLen.toNat ∧ memLookup s.ibuf i = none)

/-- R81: ENCODE of empty input gives empty output and OUT_LEN = 0, whatever VARIANT, PADDING and LINE_LEN hold. -/
def Obligations.EmptyInputEncodesToNothing : Prop :=
  (∀ (v : Variant) (pad : Bool) (ll : Nat), encodeText v pad ll [] = []) ∧
  ∀ (s : State) (p : Pend), s.pend = some p → p.op = .encode → p.inLen = 0#32 →
    ∃ t, exec .encode s = .next t ∧ t.outLen = 0#32 ∧ t.obuf = s.obuf ∧ statusWord t = 0x00000002#32

/-- DECODE of empty text, and of text that sanitize strips to nothing, ends without error and with no byte, under either padding
setting (the corner cases of R84, R70). -/
def Obligations.StrippedTextDecodesToNothing : Prop :=
  ∀ (s : State) (p : Pend) (d : List Byte), s.pend = some p → p.op = .decode → d.length = p.inLen.toNat →
    Holds s.ibuf 0 d → (∀ c ∈ d, isKept p.variant c = false) →
    ∃ t, exec .decode s = .next t ∧ t.outLen = 0#32 ∧ t.obuf = s.obuf ∧ statusWord t = 0x00000002#32

/-- The frame of every command, at its issue and at its completion: registers, IBUF, the parameters and the host's side are
unchanged, and so is every OBUF byte that OUT_LEN does not count (R25, R43). A form that stores nothing leaves OUT_LEN = 0 or
the state as it was. -/
def Obligations.CommandsLeaveTheRestUnchanged : Prop :=
  ∀ (i : Instr) (s t : State), Inv s → exec i s = .next t →
    t.ctrl = s.ctrl ∧ t.lineLen = s.lineLen ∧ t.inLen = s.inLen ∧ SameHost s t ∧
    (∀ a, memLookup t.ibuf a = memLookup s.ibuf a) ∧
    (∀ j, t.outLen.toNat ≤ j → memLookup t.obuf j = memLookup s.obuf j) ∧
    (s.pend = none → ∀ j, memLookup t.obuf j = memLookup s.obuf j)

/-- A command is never refused, and the one fault it can stop with is that of a completion with unwritten input. -/
def Obligations.CommandsStopOnlyOnUnwrittenInput : Prop :=
  ∀ (i : Instr) (s : State),
    (∀ r, exec i s ≠ .refused r) ∧
    (∀ r, exec i s = .fault r → r = .uninitialisedInput ∧
      ∃ p, s.pend = some p ∧ i = opInstr p.op ∧ ∃ a, a < p.inLen.toNat ∧ memLookup s.ibuf a = none)

/-- The result of a completion is a function of the latched operands and of IBUF[0..in_len-1] alone (00_scope.md R13): two states
that agree on these get the same STATUS, OUT_LEN and output bytes, whatever else differs. -/
def Obligations.ResultDependsOnLatchedOperandsOnly : Prop :=
  ∀ (s s' t : State) (p : Pend), Inv s → s.pend = some p → s'.pend = some p →
    (∀ a, a < p.inLen.toNat → memLookup s'.ibuf a = memLookup s.ibuf a) →
    exec (opInstr p.op) s = .next t →
    ∃ t', exec (opInstr p.op) s' = .next t' ∧ statusWord t' = statusWord t ∧ t'.outLen = t.outLen ∧
      ∀ j, j < t.outLen.toNat → memLookup t'.obuf j = memLookup t.obuf j

/-- DECODE does not read the latched line length (R17, R84). -/
def Obligations.DecodeIgnoresLineLen : Prop :=
  ∀ (s : State) (p : Pend) (ll : Word), p.op = .decode →
    exec .decode { s with pend := some { p with lineLen := ll } } = exec .decode { s with pend := some p }

/-! ## Errors -/

/-- R110: when a command ends in an error, at issue or at completion, BUSY = 0, DONE = 1, ERR = 1, ERRCODE is the code, OUT_LEN = 0,
no byte of OBUF is written, PEND is discarded, and nothing else changes. -/
def Obligations.ErrorEntryIsPrecise : Prop :=
  ∀ (i : Instr) (s t : State), Inv s → exec i s = .next t → t.status.err = true →
    ∃ e, e ≠ .noError ∧
      t = { s with status := { done := true, err := true, errcode := e }, outLen := 0#32, pend := none } ∧
      busy t = false

/-- The order of 60_exceptions.md R109: CommandError before ParamError before LengthError, the first two at issue, and LengthError
only by the completion of a DECODE. -/
def Obligations.ErrorPriority : Prop :=
  (∀ (i : Instr) (s t : State), exec i s = .next t → t.status.errcode = .lengthError → s.status.errcode ≠ .lengthError →
    i = .decode ∧ ∃ p, s.pend = some p ∧ p.op = .decode) ∧
  ∀ (s : State) (w : Word), s.pend = none →
    ∃ t, exec (decodeWord w) s = .next t ∧
      (w.toNat % 4 = 0 ∨ w.toNat % 4 = 3 → t.status.errcode = .commandError) ∧
      (w.toNat % 4 = 1 ∨ w.toNat % 4 = 2 → s.cfg.ibufSize < s.inLen.toNat → t.status.errcode = .paramError) ∧
      (w.toNat % 4 = 1 ∨ w.toNat % 4 = 2 → s.inLen.toNat ≤ s.cfg.ibufSize →
        t.status.errcode = .noError ∧ busy t = true)

/-- R103, R111: while IDLE, STATUS, OUT_LEN, OBUF and the absence of PEND survive every step that is neither an issue nor a
reset. -/
def Obligations.ResultPersistsUntilIssueOrReset : Prop :=
  ∀ (s t : State) (e : Event) (rest : List Event), s.pend = none → s.schedule = e :: rest → e ≠ .reset →
    (∀ w, e ≠ .access (.write (s.cfg.base + 0x0000C) 4 w)) → step s = .next t →
    t.status = s.status ∧ t.outLen = s.outLen ∧ t.obuf = s.obuf ∧ t.pend = none

/-! ## The sequencer -/

/-- R95: the moves between IDLE and BUSY. A step goes from IDLE to BUSY exactly if it is an issue that passes its checks, and from
BUSY to IDLE exactly if it is the codec's turn or a reset. Every other step, and so every host access while BUSY, stays. (Which
entries of a schedule are the codec's turn is the model's: log 2, log 3.) -/
def Obligations.SequencerMoves : Prop :=
  ∀ s t : State, step s = .next t →
    (busy s = false → (busy t = true ↔
      ∃ w rest, s.schedule = .access (.write (s.cfg.base + 0x0000C) 4 w) :: rest ∧
        (w.toNat % 4 = 1 ∨ w.toNat % 4 = 2) ∧ s.inLen.toNat ≤ s.cfg.ibufSize)) ∧
    (busy s = true → (busy t = false ↔
      (s.schedule = [] ∨ (∃ rest, s.schedule = .codec :: rest) ∨ (∃ rest, s.schedule = .poll 0 :: rest) ∨
        ∃ rest, s.schedule = .reset :: rest))) ∧
    ((∃ rest, s.schedule = .reset :: rest) → busy t = false) ∧
    ((statusWord t).getLsbD 0 = true ↔ ∃ p, t.pend = some p)

/-- A pending command's operands and input cannot change under it (R49, R99): a step that leaves the block BUSY leaves every
register, both buffers and PEND as they were. -/
def Obligations.PendingCommandIsFrozen : Prop :=
  ∀ s t : State, busy s = true → step s = .next t → busy t = true → SameBlock s t

/-- R58 and R101, as far as one schedule shows them: POLL ends. After at most `n + 2` steps its last read of STATUS has returned
BUSY = 0. A pending command whose input is written is complete then. (The form of POLL is the model's: log 2.) -/
def Obligations.PollEndsWithBusyClear : Prop :=
  ∀ (s : State) (n : Nat) (rest : List Event), s.schedule = .poll n :: rest →
    (∀ p, s.pend = some p → ∀ a, a < p.inLen.toNat → (memLookup s.ibuf a).isSome = true) →
    ∃ k t v older, 1 ≤ k ∧ k ≤ n + 2 ∧ Host.Core.run Sys2Proof.core k s = .next t ∧ t.schedule = rest ∧
      t.responses = .data v :: older ∧ v = statusWord t ∧ v.getLsbD 0 = false ∧ busy t = false ∧
      (busy s = true → t.status.done = true)

/-! ## Reset -/

/-- The values that 10_state.md section 6 gives after reset, at `State.reset`. Its parameters and its host side are choices of the
model (log 1, log 2, log 4) and no clause is about them. -/
def Obligations.ResetStateHoldsSpecValues : Prop :=
  regRead State.reset 0x00000 = 0x00000002#32 ∧ regRead State.reset 0x00004 = 0#32 ∧ regRead State.reset 0x00008 = 0#32 ∧
  regRead State.reset 0x0000C = 0#32 ∧ regRead State.reset 0x00010 = 0#32 ∧ regRead State.reset 0x00014 = 0#32 ∧
  State.reset.pend = none ∧ (∀ i, memLookup State.reset.ibuf i = none) ∧ (∀ i, memLookup State.reset.obuf i = none)

/-- R119: the reset event gives every register its value, discards a pending command, and starts nothing by itself. -/
def Obligations.ResetEventRestoresSpecValues : Prop :=
  ∀ (s : State) (rest : List Event), s.schedule = .reset :: rest →
    ∃ t, step s = .next t ∧
      ctrlWord t.ctrl = 0x00000002#32 ∧ t.ctrl.variant = .standard ∧ t.ctrl.padding = true ∧
      t.lineLen = 0#32 ∧ t.inLen = 0#32 ∧ statusWord t = 0#32 ∧ t.outLen = 0#32 ∧
      t.pend = none ∧ busy t = false ∧ (∀ i, memLookup t.ibuf i = none) ∧ (∀ i, memLookup t.obuf i = none) ∧
      t.cfg = s.cfg ∧ t.schedule = rest ∧ t.responses = s.responses ∧
      (rest = [] → step t = .next t)

/-! ## Invariants -/

/-- The invariant holds after reset. (The parameters there are the reference configuration: log 1.) -/
def Obligations.ResetSatisfiesInv : Prop := Inv State.reset

/-- Every step keeps the invariant, from every state that satisfies it. -/
def Obligations.StepKeepsInv : Prop :=
  ∀ s t : State, Inv s → step s = .next t → Inv t

/-- The parameters of R8 are fixed: no step changes them. -/
def Obligations.StepKeepsParameters : Prop :=
  ∀ s t : State, step s = .next t → t.cfg = s.cfg

/-! ## alphabet_lookup and padding_control -/

/-- R60: the variants differ only at positions 62 and 63, and within each the symbols are distinct. -/
def Obligations.VariantsDifferOnlyInLastTwo : Prop :=
  (∀ i : Sym, fwd .standard i = fwd .urlSafe i ↔ i.toNat ≤ 61) ∧
  (∀ (v : Variant) (i j : Sym), fwd v i = fwd v j → i = j)

/-- R61: `rev(v, c) = some(i)` if `fwd(v, i) = c`, and `none` if there is no such i. -/
def Obligations.ReverseLookupInvertsForward : Prop :=
  ∀ v : Variant,
    (∀ i : Sym, rev v (fwd v i) = some i) ∧
    (∀ c : Byte, (∀ i : Sym, fwd v i ≠ c) → rev v c = none)

/-- R64: the kept bytes are the alphabet's and `=`, 65 of them in each variant, and which they are. -/
def Obligations.KeptBytesAreAlphabetAndPad : Prop :=
  (∀ (v : Variant) (c : Byte), isKept v c = true ↔ rev v c ≠ none ∨ c = 0x3D#8) ∧
  (∀ v : Variant, ((List.range 256).filter (fun c => isKept v (BitVec.ofNat 8 c))).length = 65) ∧
  (∀ c : Byte, isKept .standard c = true ↔
    (0x41 ≤ c.toNat ∧ c.toNat ≤ 0x5A) ∨ (0x61 ≤ c.toNat ∧ c.toNat ≤ 0x7A) ∨ (0x30 ≤ c.toNat ∧ c.toNat ≤ 0x39) ∨
      c = 0x2B#8 ∨ c = 0x2F#8 ∨ c = 0x3D#8) ∧
  (∀ c : Byte, isKept .urlSafe c = true ↔
    (0x41 ≤ c.toNat ∧ c.toNat ≤ 0x5A) ∨ (0x61 ≤ c.toNat ∧ c.toNat ≤ 0x7A) ∨ (0x30 ≤ c.toNat ∧ c.toNat ≤ 0x39) ∨
      c = 0x2D#8 ∨ c = 0x5F#8 ∨ c = 0x3D#8)

/-- R68: the plan of a tail, row by row. -/
def Obligations.TailPlanRows : Prop :=
  tailSymbols 1 true = [.data 0, .data 1, .pad, .pad] ∧ tailSymbols 1 false = [.data 0, .data 1] ∧
  tailSymbols 2 true = [.data 0, .data 1, .data 2, .pad] ∧ tailSymbols 2 false = [.data 0, .data 1, .data 2] ∧
  ∀ (v : Variant) (b0 b1 : Byte),
    encodeTail v true 1 (packBytes b0 0#8 0#8) =
      [fwd v (BitVec.ofNat 6 (b0.toNat / 4)), fwd v (BitVec.ofNat 6 (b0.toNat % 4 * 16)), 0x3D#8, 0x3D#8] ∧
    encodeTail v true 2 (packBytes b0 b1 0#8) =
      [fwd v (BitVec.ofNat 6 (b0.toNat / 4)), fwd v (BitVec.ofNat 6 (b0.toNat % 4 * 16 + b1.toNat / 16)),
       fwd v (BitVec.ofNat 6 (b1.toNat % 16 * 4)), 0x3D#8] ∧
    encodeTail v false 1 (packBytes b0 0#8 0#8) =
      [fwd v (BitVec.ofNat 6 (b0.toNat / 4)), fwd v (BitVec.ofNat 6 (b0.toNat % 4 * 16))] ∧
    encodeTail v false 2 (packBytes b0 b1 0#8) =
      [fwd v (BitVec.ofNat 6 (b0.toNat / 4)), fwd v (BitVec.ofNat 6 (b0.toNat % 4 * 16 + b1.toNat / 16)),
       fwd v (BitVec.ofNat 6 (b1.toNat % 16 * 4))]

/-- R71: the pad count looks at the last two kept symbols, is capped at 2, and is 0 without padding. A pad symbol's value is 0. -/
def Obligations.PadCountOfTrailingPads : Prop :=
  (∀ s : List Byte, padCount false s = 0) ∧ padCount true [] = 0 ∧
  (∀ b : Byte, padCount true [b] = if b = 0x3D#8 then 1 else 0) ∧
  (∀ (s : List Byte) (a b : Byte), padCount true (s ++ [a, b]) =
    if a = 0x3D#8 ∧ b = 0x3D#8 then 2 else if b = 0x3D#8 then 1 else 0) ∧
  padCount true [0x41#8, 0x3D#8, 0x3D#8, 0x3D#8] = 2 ∧ (∀ v : Variant, symbolValue v 0x3D#8 = 0#6)

/-! ## base64_encoder -/

/-- The four symbols of a full group, by the arithmetic 42_base64_encoder.md R76 derives for the slices. -/
def Obligations.EncodeGroupSlices : Prop :=
  ∀ (v : Variant) (b0 b1 b2 : Byte),
    (packBytes b0 b1 b2).toNat = b0.toNat * 65536 + b1.toNat * 256 + b2.toNat ∧
    encodeGroup v b0 b1 b2 =
      [fwd v (BitVec.ofNat 6 (b0.toNat / 4)), fwd v (BitVec.ofNat 6 (b0.toNat % 4 * 16 + b1.toNat / 16)),
       fwd v (BitVec.ofNat 6 (b1.toNat % 16 * 4 + b2.toNat / 64)), fwd v (BitVec.ofNat 6 (b2.toNat % 64))]

/-- Line wrapping in closed form (R77, R78, R80): with G = ceil(LL / 4) groups to a line, the text of 3G bytes or more is the
unwrapped text of the first 3G, a terminator, and the wrapped text of the rest. The last line has a terminator exactly if it
has a tail. -/
def Obligations.LineWrappingByLines : Prop :=
  ∀ (v : Variant) (pad : Bool) (ll : Nat) (d : List Byte), 0 < ll →
    (3 * ((ll + 3) / 4) ≤ d.length →
      encodeText v pad ll d =
        encodeText v pad 0 (d.take (3 * ((ll + 3) / 4))) ++ [0x0D#8, 0x0A#8]
          ++ encodeText v pad ll (d.drop (3 * ((ll + 3) / 4)))) ∧
    (d.length < 3 * ((ll + 3) / 4) →
      encodeText v pad ll d = encodeText v pad 0 d ++ (if d.length % 3 = 0 then [] else [0x0D#8, 0x0A#8]))

/-- The length of the text (the law 42_base64_encoder.md derives): S symbols and T terminators of two bytes, never more than
6 * ceil(n / 3). -/
def Obligations.EncodedLength : Prop :=
  ∀ (v : Variant) (pad : Bool) (ll : Nat) (d : List Byte),
    (encodeText v pad ll d).length =
      (4 * (d.length / 3) + (if d.length % 3 = 0 then 0 else if pad then 4 else d.length % 3 + 1))
      + 2 * (if ll = 0 then 0 else d.length / 3 / ((ll + 3) / 4) + (if d.length % 3 = 0 then 0 else 1)) ∧
    (encodeText v pad ll d).length ≤ 6 * ((d.length + 2) / 3)

/-- The length laws without wrapping (derived in 41_padding_control.md): 4 * ceil(n / 3) with padding, ceil(4n / 3) without. -/
def Obligations.UnwrappedLengthLaws : Prop :=
  ∀ (v : Variant) (d : List Byte),
    (encodeText v true 0 d).length = 4 * ((d.length + 2) / 3) ∧
    (encodeText v false 0 d).length = (4 * d.length + 2) / 3

/-- What the text is made of (42_base64_encoder.md, result placement): alphabet symbols, `=` only with padding, CR and LF only
with wrapping. -/
def Obligations.EncodedBytesAreSymbolsPadsAndTerminators : Prop :=
  ∀ (v : Variant) (pad : Bool) (ll : Nat) (d : List Byte), ∀ c ∈ encodeText v pad ll d,
    (∃ i : Sym, c = fwd v i) ∨ (c = 0x3D#8 ∧ pad = true) ∨ ((c = 0x0D#8 ∨ c = 0x0A#8) ∧ 0 < ll)

/-- Variant divergence: the two texts have one length and differ only where one has `+` or `/` and the other `-` or `_`. -/
def Obligations.VariantDivergence : Prop :=
  ∀ (pad : Bool) (ll : Nat) (d : List Byte),
    (encodeText .standard pad ll d).length = (encodeText .urlSafe pad ll d).length ∧
    ∀ (k : Nat) (a b : Byte), (encodeText .standard pad ll d)[k]? = some a → (encodeText .urlSafe pad ll d)[k]? = some b →
      a = b ∨ (a = 0x2B#8 ∧ b = 0x2D#8) ∨ (a = 0x2F#8 ∧ b = 0x5F#8)

/-! ## base64_decoder -/

/-- R85: sanitize keeps the kept bytes in their order and drops every other byte, CR, LF, spaces and 0x80 to 0xFF among them. -/
def Obligations.SanitizeKeepsOrderDropsRest : Prop :=
  ∀ v : Variant,
    sanitize v [] = [] ∧
    (∀ (c : Byte) (t : List Byte), sanitize v (c :: t) = if isKept v c then c :: sanitize v t else sanitize v t) ∧
    (∀ c : Byte, c = 0x0D#8 ∨ c = 0x0A#8 ∨ c = 0x20#8 ∨ 0x80 ≤ c.toNat → isKept v c = false) ∧
    isKept .standard 0x2D#8 = false ∧ isKept .standard 0x5F#8 = false ∧
    isKept .urlSafe 0x2B#8 = false ∧ isKept .urlSafe 0x2F#8 = false ∧
    sanitize v [0x54#8, 0x57#8, 0x0D#8, 0x0A#8, 0x46#8, 0x75#8] = [0x54#8, 0x57#8, 0x46#8, 0x75#8]

/-- A stripped byte contributes nothing: the result is that of the sanitized text, error or bytes (R85, R86). -/
def Obligations.DecodeSeesSanitizedTextOnly : Prop :=
  ∀ (v : Variant) (pad : Bool) (t t' : List Byte), sanitize v t = sanitize v t' →
    decodeText v pad t = decodeText v pad t' ∧ decodeText v pad (sanitize v t) = decodeText v pad t

/-- The three bytes of a group, by the arithmetic 43_base64_decoder.md R90 derives. -/
def Obligations.UnpackGroupBytes : Prop :=
  ∀ u0 u1 u2 u3 : Sym,
    (packSymbols u0 u1 u2 u3).toNat = u0.toNat * 262144 + u1.toNat * 4096 + u2.toNat * 64 + u3.toNat ∧
    unpackGroup u0 u1 u2 u3 =
      [BitVec.ofNat 8 (u0.toNat * 4 + u1.toNat / 16), BitVec.ofNat 8 (u1.toNat % 16 * 16 + u2.toNat / 4),
       BitVec.ofNat 8 (u2.toNat % 4 * 64 + u3.toNat)]

/-- R91: the result has exactly m = out_len bytes, the first of what the groups supply, and m <= 3 * ceil(L / 4). -/
def Obligations.DecodedLengthIsOutLen : Prop :=
  ∀ (v : Variant) (pad : Bool) (t out : List Byte), decodeText v pad t = .ok out →
    out = (unpack v (sanitize v t)).take (outLenOf pad (sanitize v t)) ∧
    out.length = outLenOf pad (sanitize v t) ∧
    (unpack v (sanitize v t)).length = 3 * (((sanitize v t).length + 3) / 4) ∧
    out.length ≤ t.length

/-- The fill of a partial final group cannot be observed (43_base64_decoder.md, grouping): with any symbols in the missing
positions, the bytes that are kept are the same. -/
def Obligations.MissingPositionsCannotBeObserved : Prop :=
  ∀ (v : Variant) (s fill : List Byte), (s.length + fill.length) % 4 = 0 → fill.length < 4 →
    (unpack v (s ++ fill)).take (outLenOf false s) = (unpack v s).take (outLenOf false s)

/-- The round trip (43_base64_decoder.md): decoding the text of any bytes under the same options gives them back, for every
variant, padding setting and line length. -/
def Obligations.DecodeOfEncodeIsTheInput : Prop :=
  ∀ (v : Variant) (pad : Bool) (ll : Nat) (b : List Byte),
    decodeText v pad (encodeText v pad ll b) = .ok b

/-! ## The host's accesses -/

/-- R35, R37: an access of an illegal size or alignment is answered with BusError and changes nothing. Every legal access to any
offset of the window completes normally. -/
def Obligations.IllegalAccessIsBusErrorOnly : Prop :=
  ∀ (s : State) (rest : List Event) (off size : Nat) (v : Word) (a : Access), off < 0x80000 →
    a = .read (s.cfg.base + off) size ∨ a = .write (s.cfg.base + off) size v → s.schedule = .access a :: rest →
    ((off < 0x10000 ∧ (size ≠ 4 ∨ off % 4 ≠ 0)) ∨
      (0x10000 ≤ off ∧ ((size ≠ 1 ∧ size ≠ 2 ∧ size ≠ 4) ∨ off % size ≠ 0)) →
      step s = .next { s with schedule := rest, responses := .busError :: s.responses }) ∧
    ((off < 0x10000 ∧ size = 4 ∧ off % 4 = 0) ∨
      (0x10000 ≤ off ∧ (size = 1 ∨ size = 2 ∨ size = 4) ∧ off % size = 0) →
      ∃ t r, step s = .next t ∧ t.schedule = rest ∧ t.responses = r :: s.responses ∧ r ≠ .busError)

/-- An address outside the block's window is another target's, and the access is refused by name (the model's choice, log 6). -/
def Obligations.AccessOutsideWindowRefused : Prop :=
  ∀ (s : State) (rest : List Event) (addr size : Nat) (v : Word) (a : Access),
    addr < s.cfg.base ∨ s.cfg.base + 0x80000 ≤ addr → a = .read addr size ∨ a = .write addr size v →
    s.schedule = .access a :: rest → step s = .refused .outsideWindow

/-- R99: while BUSY every legal write completes normally and changes no state. Writes to STATUS, OUT_LEN, OBUF and reserved offsets
are ignored at all times. -/
def Obligations.IgnoredWritesChangeNothing : Prop :=
  ∀ (s : State) (rest : List Event) (off size : Nat) (v : Word), off < 0x80000 → accessLegal off size = true →
    s.schedule = .access (.write (s.cfg.base + off) size v) :: rest →
    (busy s = true ∨ off = 0x00010 ∨ off = 0x00014 ∨ (0x00018 ≤ off ∧ off < 0x10000) ∨ 0x20000 ≤ off) →
    ∃ t, step s = .next t ∧ SameBlock s t ∧ t.schedule = rest ∧ t.responses = .written :: s.responses

/-- The register writes of R42 while IDLE: CTRL without its reserved bits, LINE_LEN and IN_LEN, each read back, and nothing else
changes (R16, R17, R18). -/
def Obligations.RegisterWritesStore : Prop :=
  ∀ (s : State) (rest : List Event) (v : Word), s.pend = none →
    (s.schedule = .access (.write (s.cfg.base + 0x00000) 4 v) :: rest →
      ∃ t, step s = .next t ∧ regRead t 0x00000 = (v &&& 0x00000003#32) ∧
        t.ctrl.variant = (if v.getLsbD 0 then .urlSafe else .standard) ∧ t.ctrl.padding = v.getLsbD 1 ∧
        SameBlock { s with ctrl := t.ctrl } t ∧ t.schedule = rest ∧ t.responses = .written :: s.responses) ∧
    (s.schedule = .access (.write (s.cfg.base + 0x00004) 4 v) :: rest →
      ∃ t, step s = .next t ∧ regRead t 0x00004 = v ∧
        SameBlock { s with lineLen := v } t ∧ t.schedule = rest ∧ t.responses = .written :: s.responses) ∧
    (s.schedule = .access (.write (s.cfg.base + 0x00008) 4 v) :: rest →
      ∃ t, step s = .next t ∧ regRead t 0x00008 = v ∧
        SameBlock { s with inLen := v } t ∧ t.schedule = rest ∧ t.responses = .written :: s.responses)

/-- The register reads of R42, at every aligned offset of the register space, IDLE or BUSY: the defined registers read their
values with the reserved bits 0, CMD and reserved offsets read 0, and nothing of the block changes. -/
def Obligations.RegisterReadsReturnValues : Prop :=
  ∀ (s : State) (rest : List Event) (off : Nat), off < 0x10000 → off % 4 = 0 →
    s.schedule = .access (.read (s.cfg.base + off) 4) :: rest →
    ∃ t v, step s = .next t ∧ t.responses = .data v :: s.responses ∧ t.schedule = rest ∧ SameBlock s t ∧
      (off = 0x00000 → v = ctrlWord s.ctrl ∧ v.toNat < 4) ∧ (off = 0x00004 → v = s.lineLen) ∧ (off = 0x00008 → v = s.inLen) ∧
      (off = 0x0000C → v = 0#32) ∧
      (off = 0x00010 → v.getLsbD 0 = busy s ∧ v.getLsbD 1 = s.status.done ∧ v.getLsbD 2 = s.status.err ∧
        v.toNat / 16 = (errNumber s.status.errcode).toNat ∧ v.getLsbD 3 = false) ∧
      (off = 0x00014 → v = s.outLen) ∧ (0x00018 ≤ off → v = 0#32)

/-- The reads of R100 while BUSY, in reachable states: STATUS reads 1, OUT_LEN reads 0, an IBUF byte with a value reads it, and a
read of OBUF is answered with some byte and moves on to a fresh draw (which byte is left free: log 4). -/
def Obligations.ReadsWhileBusy : Prop :=
  ∀ (s : State) (rest : List Event) (off : Nat), Inv s → busy s = true →
    (s.schedule = .access (.read (s.cfg.base + 0x00010) 4) :: rest →
      ∃ t, step s = .next t ∧ t.responses = .data 0x00000001#32 :: s.responses ∧ SameBlock s t) ∧
    (s.schedule = .access (.read (s.cfg.base + 0x00014) 4) :: rest →
      ∃ t, step s = .next t ∧ t.responses = .data 0#32 :: s.responses ∧ SameBlock s t) ∧
    (∀ b, memLookup s.ibuf off = some b → s.schedule = .access (.read (s.cfg.base + 0x10000 + off) 1) :: rest →
      ∃ t, step s = .next t ∧ t.responses = .data (b.setWidth 32) :: s.responses ∧ SameBlock s t) ∧
    (off < s.cfg.obufSize → s.schedule = .access (.read (s.cfg.base + 0x40000 + off) 1) :: rest →
      ∃ t v, step s = .next t ∧ t.responses = .data v :: s.responses ∧ v.toNat < 256 ∧ SameBlock s t ∧
        t.draws = s.draws + 1)

/-- A legal read of the buffer space is little-endian (R38): lane k is the byte of offset `off + k`, the lanes above are 0, and
nothing of the block changes. Each byte reads by its own row: a byte with a value in IBUF, and in OBUF while IDLE, reads it, and
bytes beyond the buffers and in the reserved space read 0 (R34, R40, R41). -/
def Obligations.BufferReadsAreLittleEndian : Prop :=
  ∀ (s : State) (rest : List Event) (off size : Nat), 0x10000 ≤ off → off < 0x80000 →
    size = 1 ∨ size = 2 ∨ size = 4 → off % size = 0 →
    s.schedule = .access (.read (s.cfg.base + off) size) :: rest →
    ∃ t v, step s = .next t ∧ t.responses = .data v :: s.responses ∧ t.schedule = rest ∧ SameBlock s t ∧
      ∀ k, k < 4 →
        (size ≤ k → laneOf v k = 0#8) ∧
        (k < size →
          (off + k < 0x20000 → s.cfg.ibufSize ≤ off + k - 0x10000 → laneOf v k = 0#8) ∧
          (∀ b, off + k < 0x20000 → off + k - 0x10000 < s.cfg.ibufSize →
            memLookup s.ibuf (off + k - 0x10000) = some b → laneOf v k = b) ∧
          (0x20000 ≤ off + k → off + k < 0x40000 → laneOf v k = 0#8) ∧
          (∀ b, 0x40000 ≤ off + k → off + k - 0x40000 < s.cfg.obufSize → busy s = false →
            memLookup s.obuf (off + k - 0x40000) = some b → laneOf v k = b) ∧
          (0x40000 ≤ off + k → s.cfg.obufSize ≤ off + k - 0x40000 → laneOf v k = 0#8))

/-- A legal write of the IBUF window while IDLE (R38, R40): lane k is stored at `off + k` where that byte exists. Every other byte
of IBUF, and everything else of the block, is unchanged. -/
def Obligations.IbufWritesStoreTheirLanes : Prop :=
  ∀ (s : State) (rest : List Event) (off size : Nat) (v : Word), 0x10000 ≤ off → off < 0x20000 →
    size = 1 ∨ size = 2 ∨ size = 4 → off % size = 0 → s.pend = none →
    s.schedule = .access (.write (s.cfg.base + off) size v) :: rest →
    ∃ t, step s = .next t ∧ t.schedule = rest ∧ t.responses = .written :: s.responses ∧
      SameBlock { s with ibuf := t.ibuf } t ∧
      (∀ k, k < size → off - 0x10000 + k < s.cfg.ibufSize →
        memLookup t.ibuf (off - 0x10000 + k) = some (laneOf v k)) ∧
      (∀ i, i < off - 0x10000 ∨ off - 0x10000 + size ≤ i ∨ s.cfg.ibufSize ≤ i →
        memLookup t.ibuf i = memLookup s.ibuf i)

/-- Reads are free of side effects and repeatable (R44): a read changes nothing of the block, and the same read made again at once
returns the same answer, unless it is a read of OBUF while BUSY. (That bytes with no value are stable between reads too is how
the model takes the rule: log 4.) -/
def Obligations.ReadsAreRepeatable : Prop :=
  ∀ (s t u : State) (rest : List Event) (addr size : Nat),
    s.schedule = .access (.read addr size) :: .access (.read addr size) :: rest →
    (busy s = false ∨ addr < s.cfg.base + 0x40000 ∨ s.cfg.base + 0x40000 + s.cfg.obufSize ≤ addr) → step s = .next t → step t = .next u →
    SameBlock s t ∧ SameBlock t u ∧ u.schedule = rest ∧ t.draws = s.draws ∧
    ∃ r, t.responses = r :: s.responses ∧ u.responses = r :: r :: s.responses

/-- An IDLE block with nothing scheduled holds its state (R116), and a codec turn without a pending command is no step (R6). -/
def Obligations.IdleBlockHoldsItsState : Prop :=
  ∀ (s : State) (rest : List Event), s.pend = none →
    (s.schedule = [] → step s = .next s) ∧
    (s.schedule = .codec :: rest → step s = .next { s with schedule := rest })
end

