-- ==== Sys2Proof/Laws/Alphabet.lean ====
section
/-! SUPPORT. The laws of the alphabet tables, the group packing and its inverse. -/

namespace Sys2Proof.Machine

/-! ### Tables -/

/-- The reverse lookup of a symbol is its value. -/
theorem rev_fwd (v : Variant) (i : Sym) : rev v (fwd v i) = some i := by
  revert i; cases v <;> decide

/-- A valid entry of REV is the position of its symbol. -/
theorem fwd_of_rev (v : Variant) (c : Byte) : ∀ i : Sym, rev v c = some i → fwd v i = c := by
  have h : ∀ c : Byte, (rev v c).all (fun i => fwd v i == c) = true := by cases v <;> decide
  intro i hi
  simpa [hi] using h c

theorem isKept_fwd (v : Variant) (i : Sym) : isKept v (fwd v i) = true := by
  simp [isKept, rev_fwd]

theorem isKept_pad (v : Variant) : isKept v padSymbol = true := by simp [isKept]

theorem isKept_cr (v : Variant) : isKept v 0x0D#8 = false := by cases v <;> decide

theorem isKept_lf (v : Variant) : isKept v 0x0A#8 = false := by cases v <;> decide

theorem fwd_ne_pad (v : Variant) (i : Sym) : fwd v i ≠ padSymbol := by
  revert i; cases v <;> decide

theorem fwd_ne_lf (v : Variant) (i : Sym) : fwd v i ≠ 0x0A#8 := by
  revert i; cases v <;> decide

theorem symbolValue_fwd (v : Variant) (i : Sym) : symbolValue v (fwd v i) = i := by
  simp [symbolValue, rev_fwd]

theorem symbolValue_pad (v : Variant) : symbolValue v padSymbol = 0#6 := by cases v <;> decide

/-! ### Groups -/

theorem packBytes_toNat (b0 b1 b2 : Byte) :
    (packBytes b0 b1 b2).toNat = b0.toNat * 65536 + b1.toNat * 256 + b2.toNat := by
  have h0 := b0.isLt; have h1 := b1.isLt; have h2 := b2.isLt
  have e1 : (b1.setWidth 24 <<< 8 : BitVec 24).toNat = b1.toNat <<< 8 := by
    simp only [BitVec.toNat_shiftLeft, BitVec.toNat_setWidth, Nat.shiftLeft_eq]; omega
  have e0 : (b0.setWidth 24 <<< 16 : BitVec 24).toNat = b0.toNat <<< 16 := by
    simp only [BitVec.toNat_shiftLeft, BitVec.toNat_setWidth, Nat.shiftLeft_eq]; omega
  have e2 : (b2.setWidth 24 : BitVec 24).toNat = b2.toNat := by
    simp only [BitVec.toNat_setWidth]; omega
  have e : b0.toNat <<< 16 ||| b1.toNat <<< 8 = (b0.toNat <<< 8 + b1.toNat) <<< 8 := by
    rw [Nat.shiftLeft_add_eq_or_of_lt (by omega), Nat.shiftLeft_or_distrib, ← Nat.shiftLeft_add]
  unfold packBytes
  rw [BitVec.toNat_or, BitVec.toNat_or, e0, e1, e2, e, ← Nat.shiftLeft_add_eq_or_of_lt (by omega)]
  simp only [Nat.shiftLeft_eq]; omega

theorem packSymbols_toNat (u0 u1 u2 u3 : Sym) :
    (packSymbols u0 u1 u2 u3).toNat = u0.toNat * 262144 + u1.toNat * 4096 + u2.toNat * 64 + u3.toNat := by
  have h0 := u0.isLt; have h1 := u1.isLt; have h2 := u2.isLt; have h3 := u3.isLt
  have e0 : (u0.setWidth 24 <<< 18 : BitVec 24).toNat = u0.toNat <<< 18 := by
    simp only [BitVec.toNat_shiftLeft, BitVec.toNat_setWidth, Nat.shiftLeft_eq]; omega
  have e1 : (u1.setWidth 24 <<< 12 : BitVec 24).toNat = u1.toNat <<< 12 := by
    simp only [BitVec.toNat_shiftLeft, BitVec.toNat_setWidth, Nat.shiftLeft_eq]; omega
  have e2 : (u2.setWidth 24 <<< 6 : BitVec 24).toNat = u2.toNat <<< 6 := by
    simp only [BitVec.toNat_shiftLeft, BitVec.toNat_setWidth, Nat.shiftLeft_eq]; omega
  have e3 : (u3.setWidth 24 : BitVec 24).toNat = u3.toNat := by
    simp only [BitVec.toNat_setWidth]; omega
  have e : u0.toNat <<< 18 ||| u1.toNat <<< 12 = (u0.toNat <<< 6 + u1.toNat) <<< 12 := by
    rw [Nat.shiftLeft_add_eq_or_of_lt (by omega), Nat.shiftLeft_or_distrib, ← Nat.shiftLeft_add]
  have e' : (u0.toNat <<< 6 + u1.toNat) <<< 12 ||| u2.toNat <<< 6
      = ((u0.toNat <<< 6 + u1.toNat) <<< 6 + u2.toNat) <<< 6 := by
    rw [Nat.shiftLeft_add_eq_or_of_lt (a := u0.toNat <<< 6 + u1.toNat) (by omega), Nat.shiftLeft_or_distrib,
      ← Nat.shiftLeft_add]
  unfold packSymbols
  rw [BitVec.toNat_or, BitVec.toNat_or, BitVec.toNat_or, e0, e1, e2, e3, e, e',
    ← Nat.shiftLeft_add_eq_or_of_lt (by omega)]
  simp only [Nat.shiftLeft_eq]; omega

theorem extract_toNat {n : Nat} (w : BitVec n) (start len : Nat) :
    (w.extractLsb' start len).toNat = w.toNat / 2 ^ start % 2 ^ len := by
  simp [BitVec.extractLsb'_toNat, Nat.shiftRight_eq_div_pow]

theorem slice_packBytes (b0 b1 b2 : Byte) :
    (slice (packBytes b0 b1 b2) 0).toNat = b0.toNat / 4 ∧
    (slice (packBytes b0 b1 b2) 1).toNat = b0.toNat % 4 * 16 + b1.toNat / 16 ∧
    (slice (packBytes b0 b1 b2) 2).toNat = b1.toNat % 16 * 4 + b2.toNat / 64 ∧
    (slice (packBytes b0 b1 b2) 3).toNat = b2.toNat % 64 := by
  have h0 := b0.isLt; have h1 := b1.isLt; have h2 := b2.isLt
  unfold slice
  simp only [extract_toNat, packBytes_toNat]
  norm_num
  omega

theorem unpackGroup_toNat (u0 u1 u2 u3 : Sym) :
    unpackGroup u0 u1 u2 u3 =
      [BitVec.ofNat 8 (u0.toNat * 4 + u1.toNat / 16), BitVec.ofNat 8 (u1.toNat % 16 * 16 + u2.toNat / 4),
       BitVec.ofNat 8 (u2.toNat % 4 * 64 + u3.toNat)] := by
  have h0 := u0.isLt; have h1 := u1.isLt; have h2 := u2.isLt; have h3 := u3.isLt
  unfold unpackGroup
  simp only [List.cons.injEq, and_true]
  refine ⟨?_, ?_, ?_⟩ <;> apply BitVec.eq_of_toNat_eq <;>
    simp only [extract_toNat, packSymbols_toNat, BitVec.toNat_ofNat] <;> norm_num <;> omega

/-- Unpacking the four slices of a group gives its three bytes back. -/
theorem unpackGroup_slices (b0 b1 b2 : Byte) :
    unpackGroup (slice (packBytes b0 b1 b2) 0) (slice (packBytes b0 b1 b2) 1) (slice (packBytes b0 b1 b2) 2)
      (slice (packBytes b0 b1 b2) 3) = [b0, b1, b2] := by
  have h0 := b0.isLt; have h1 := b1.isLt; have h2 := b2.isLt
  obtain ⟨e0, e1, e2, e3⟩ := slice_packBytes b0 b1 b2
  rw [unpackGroup_toNat, e0, e1, e2, e3]
  simp only [List.cons.injEq, and_true]
  refine ⟨?_, ?_, ?_⟩ <;> apply BitVec.eq_of_toNat_eq <;> simp only [BitVec.toNat_ofNat] <;> omega

/-- A tail has nothing in slice 3, and a tail of one byte nothing in slice 2. -/
theorem slice_tail_zero (b0 b1 : Byte) :
    slice (packBytes b0 b1 0#8) 3 = 0#6 ∧ slice (packBytes b0 0#8 0#8) 2 = 0#6 := by
  obtain ⟨-, -, -, e3⟩ := slice_packBytes b0 b1 0#8
  obtain ⟨-, -, e2, -⟩ := slice_packBytes b0 0#8 0#8
  exact ⟨BitVec.eq_of_toNat_eq (by rw [e3]; rfl), BitVec.eq_of_toNat_eq (by rw [e2]; rfl)⟩

end Sys2Proof.Machine
end

