-- ==== Sys2Proof/Laws/Decode.lean ====
section
/-! SUPPORT. The laws of the command word: its lanes, its two OP bits, and the commands they name. -/

namespace Sys2Proof

theorem and_opMask_toNat (w : Word) : (w &&& 0x00000003#32).toNat = w.toNat % 4 := by
  rw [BitVec.toNat_and, show (0x00000003#32).toNat = 2 ^ 2 - 1 from rfl, Nat.and_two_pow_sub_one_eq_mod]

theorem and_opMask_eq_iff (w : Word) (k : Nat) (hk : k < 4) :
    w &&& 0x00000003#32 = BitVec.ofNat 32 k ↔ w.toNat % 4 = k := by
  rw [← BitVec.toNat_inj, and_opMask_toNat, BitVec.toNat_ofNat]; omega

theorem decodeWord_of_one {w : Word} (h : w.toNat % 4 = 1) : decodeWord w = .encode :=
  if_pos ((and_opMask_eq_iff w 1 (by omega)).2 h)

theorem decodeWord_of_two {w : Word} (h : w.toNat % 4 = 2) : decodeWord w = .decode :=
  (if_neg (fun h' => by have := (and_opMask_eq_iff w 1 (by omega)).1 h'; omega)).trans
    (if_pos ((and_opMask_eq_iff w 2 (by omega)).2 h))

theorem decodeWord_of_zero {w : Word} (h : w.toNat % 4 = 0) : decodeWord w = .reservedOp0 :=
  (if_neg (fun h' => by have := (and_opMask_eq_iff w 1 (by omega)).1 h'; omega)).trans
    ((if_neg (fun h' => by have := (and_opMask_eq_iff w 2 (by omega)).1 h'; omega)).trans
      (if_pos ((and_opMask_eq_iff w 0 (by omega)).2 h)))

theorem decodeWord_of_three {w : Word} (h : w.toNat % 4 = 3) : decodeWord w = .reservedOp3 :=
  (if_neg (fun h' => by have := (and_opMask_eq_iff w 1 (by omega)).1 h'; omega)).trans
    ((if_neg (fun h' => by have := (and_opMask_eq_iff w 2 (by omega)).1 h'; omega)).trans
      (if_neg (fun h' => by have := (and_opMask_eq_iff w 0 (by omega)).1 h'; omega)))

/-- The four lanes of a word put together are the word (R38). -/
theorem wordOfLanes_lanes (w : Word) : wordOfLanes (laneOf w 0) (laneOf w 1) (laneOf w 2) (laneOf w 3) = w := by
  apply BitVec.eq_of_getLsbD_eq
  intro i hi
  simp only [wordOfLanes, laneOf, BitVec.getLsbD_append, BitVec.getLsbD_extractLsb']
  split
  · rename_i h; simp [h]
  · split
    · rename_i h1 h2; rw [show 8 * 1 + (i - 8) = i by omega]; simp [h2]
    · split
      · rename_i h1 h2 h3; rw [show 8 * 2 + (i - 8 - 8) = i by omega]; simp [h3]
      · rename_i h1 h2 h3; rw [show 8 * 3 + (i - 8 - 8 - 8) = i by omega]; simp; omega

/-- Decoding the bytes of a word is decoding the word. -/
theorem decodeBytes_lanesOf (w : Word) (rest : List Byte) : decodeBytes (lanesOf w ++ rest) = .ok (decodeWord w, rest) := by
  simp only [lanesOf, List.cons_append, List.nil_append, decodeBytes, wordOfLanes_lanes]

theorem decodeBytes_lanesOf_nil (w : Word) : decodeBytes (lanesOf w) = .ok (decodeWord w, []) := by
  simpa using decodeBytes_lanesOf w []

/-- The decoder's answer on a table word. -/
theorem decodeTableWord_eq (nbits w : Nat) : decodeTableWord nbits w = some (decodeWord (tableWord nbits w)) := by
  unfold decodeTableWord; rw [decodeBytes_lanesOf_nil]

theorem tableWord_toNat (w : Word) : tableWord 32 w.toNat = w := by
  unfold tableWord
  apply BitVec.eq_of_toNat_eq
  rw [BitVec.toNat_ofNat]; have := w.isLt; omega

end Sys2Proof

namespace Sys2Proof.Machine

/-- A word with OP 1 or 2 is the command of that operation (R52). -/
theorem decodeWord_op {w : Word} (h : w.toNat % 4 = 1 ∨ w.toNat % 4 = 2) :
    decodeWord w = opInstr (if w.toNat % 4 = 1 then .encode else .decode) := by
  rcases h with h | h
  · rw [decodeWord_of_one h, if_pos h]; rfl
  · rw [decodeWord_of_two h, if_neg (by omega)]; rfl

/-- A word with OP 0 or 3 is reserved (R52). -/
theorem decodeWord_reserved {w : Word} (h : w.toNat % 4 = 0 ∨ w.toNat % 4 = 3) :
    decodeWord w = .reservedOp0 ∨ decodeWord w = .reservedOp3 :=
  h.imp decodeWord_of_zero decodeWord_of_three

end Sys2Proof.Machine
end

