-- ==== Sys2Proof/Laws/Encoder.lean ====
section
/-! SUPPORT. The laws of the encoder: its text as groups, tail and terminators, the lines of a wrapped text, and its length. -/

namespace Sys2Proof.Machine

/-- Induction over a list in groups of three. -/
theorem groups_induction {P : List Byte → Prop} (nil : P []) (one : ∀ b0, P [b0]) (two : ∀ b0 b1, P [b0, b1])
    (group : ∀ b0 b1 b2 rest, P rest → P (b0 :: b1 :: b2 :: rest)) : ∀ d, P d
  | [] => nil
  | [b0] => one b0
  | [b0, b1] => two b0 b1
  | b0 :: b1 :: b2 :: rest => group b0 b1 b2 rest (groups_induction nil one two group rest)

/-- The text of the tail, without a terminator. -/
def tailText (v : Variant) (pad : Bool) : List Byte → List Byte
  | _ :: _ :: _ :: rest => tailText v pad rest
  | [b0, b1] => encodeTail v pad 2 (packBytes b0 b1 0#8)
  | [b0] => encodeTail v pad 1 (packBytes b0 0#8 0#8)
  | [] => []

theorem encodeTail_one (v : Variant) (pad : Bool) (w : Group) :
    encodeTail v pad 1 w = [fwd v (slice w 0), fwd v (slice w 1)] ++ (if pad then [padSymbol, padSymbol] else []) := by
  cases pad <;> simp [encodeTail, tailSymbols]

theorem encodeTail_two (v : Variant) (pad : Bool) (w : Group) :
    encodeTail v pad 2 w =
      [fwd v (slice w 0), fwd v (slice w 1), fwd v (slice w 2)] ++ (if pad then [padSymbol] else []) := by
  cases pad <;> simp [encodeTail, tailSymbols]

/-- A text ends in a terminator only if its last byte is LF. -/
theorem endsWithCrlf_append_singleton (out : List Byte) (c : Byte) (hc : c ≠ 0x0A#8) :
    endsWithCrlf (out ++ [c]) = false := by
  rw [endsWithCrlf, Bool.eq_false_iff]
  intro h
  obtain ⟨t, ht⟩ := List.isSuffixOf_iff_suffix.1 h
  have := congrArg List.getLast? ht
  simp [crlf] at this
  exact hc this.symm

/-- A tail's text never ends in a terminator, so the terminator of R80 is always appended when wrapping is on. -/
theorem closeLine_tail (ll : Nat) (out : List Byte) (v : Variant) (pad : Bool) (r : Nat) (hr : r = 1 ∨ r = 2) (w : Group) :
    closeLine ll (out ++ encodeTail v pad r w) = out ++ encodeTail v pad r w ++ (if 0 < ll then crlf else []) := by
  have h : endsWithCrlf (out ++ encodeTail v pad r w) = false := by
    have hf := fwd_ne_lf v
    have hp : padSymbol ≠ 0x0A#8 := by decide
    rcases hr with rfl | rfl <;> cases pad
    · rw [encodeTail_one, show out ++ ([fwd v (slice w 0), fwd v (slice w 1)] ++ (if false = true then _ else [])) =
        (out ++ [fwd v (slice w 0)]) ++ [fwd v (slice w 1)] by simp]
      exact endsWithCrlf_append_singleton _ _ (hf _)
    · rw [encodeTail_one, show out ++ ([fwd v (slice w 0), fwd v (slice w 1)] ++ (if true = true then _ else [])) =
        (out ++ [fwd v (slice w 0), fwd v (slice w 1), padSymbol]) ++ [padSymbol] by simp]
      exact endsWithCrlf_append_singleton _ _ hp
    · rw [encodeTail_two, show out ++ ([fwd v (slice w 0), fwd v (slice w 1), fwd v (slice w 2)] ++
        (if false = true then _ else [])) = (out ++ [fwd v (slice w 0), fwd v (slice w 1)]) ++ [fwd v (slice w 2)] by simp]
      exact endsWithCrlf_append_singleton _ _ (hf _)
    · rw [encodeTail_two, show out ++ ([fwd v (slice w 0), fwd v (slice w 1), fwd v (slice w 2)] ++
        (if true = true then _ else [])) =
        (out ++ [fwd v (slice w 0), fwd v (slice w 1), fwd v (slice w 2)]) ++ [padSymbol] by simp]
      exact endsWithCrlf_append_singleton _ _ hp
  simp only [closeLine, h, and_true]
  split <;> simp

theorem tailOf_length (d : List Byte) : (tailOf d).length = d.length % 3 := by
  induction d using groups_induction with
  | nil => rfl
  | one => rfl
  | two => rfl
  | group b0 b1 b2 rest ih => simp only [tailOf, ih, List.length_cons]; omega

theorem tailText_eq (v : Variant) (pad : Bool) (d : List Byte) :
    tailText v pad d = match tailOf d with
      | [] => []
      | [b0] => encodeTail v pad 1 (packBytes b0 0#8 0#8)
      | b0 :: b1 :: _ => encodeTail v pad 2 (packBytes b0 b1 0#8) := by
  induction d using groups_induction with
  | nil => rfl
  | one => rfl
  | two => rfl
  | group b0 b1 b2 rest ih => simpa only [tailText, tailOf] using ih

/-- The text is the groups with their terminators, the tail, and the tail's terminator (R75). -/
theorem encodeText_eq (v : Variant) (pad : Bool) (ll : Nat) (d : List Byte) :
    encodeText v pad ll d =
      encodeGroups v ll 0 d ++ tailText v pad d ++ (if 0 < ll ∧ d.length % 3 ≠ 0 then crlf else []) := by
  have hl := tailOf_length d
  rw [tailText_eq]
  unfold encodeText
  rcases h : tailOf d with _ | ⟨b0, _ | ⟨b1, r⟩⟩
  · rw [h] at hl
    simp only [List.length_nil] at hl
    simp [← hl]
  · rw [h] at hl
    simp only [List.length_cons, List.length_nil] at hl
    simp only [closeLine_tail ll _ v pad 1 (.inl rfl), ← hl]
    simp
  · rw [h] at hl
    have : d.length % 3 ≠ 0 := by rw [← hl]; simp
    simp only [closeLine_tail ll _ v pad 2 (.inr rfl), ne_eq, this, not_false_eq_true, and_true]

theorem encodeGroups_zero (v : Variant) (c c' : Nat) (d : List Byte) :
    encodeGroups v 0 c d = encodeGroups v 0 c' d := by
  induction d using groups_induction with
  | nil => rfl
  | one => rfl
  | two => rfl
  | group b0 b1 b2 rest ih => simp [encodeGroups, ih]

/-- The unwrapped text: groups and tail. -/
theorem encodeText_zero (v : Variant) (pad : Bool) (d : List Byte) :
    encodeText v pad 0 d = encodeGroups v 0 0 d ++ tailText v pad d := by
  simp [encodeText_eq]

/-- The unwrapped text group by group. -/
theorem encodeText_zero_group (v : Variant) (pad : Bool) (b0 b1 b2 : Byte) (rest : List Byte) :
    encodeText v pad 0 (b0 :: b1 :: b2 :: rest) = encodeGroup v b0 b1 b2 ++ encodeText v pad 0 rest := by
  simp [encodeText_zero, encodeGroups, tailText]

theorem encodeText_zero_nil (v : Variant) (pad : Bool) : encodeText v pad 0 [] = [] := by
  simp [encodeText_zero, encodeGroups, tailText]

theorem encodeText_zero_one (v : Variant) (pad : Bool) (b0 : Byte) :
    encodeText v pad 0 [b0] = encodeTail v pad 1 (packBytes b0 0#8 0#8) := by
  simp [encodeText_zero, encodeGroups, tailText]

theorem encodeText_zero_two (v : Variant) (pad : Bool) (b0 b1 : Byte) :
    encodeText v pad 0 [b0, b1] = encodeTail v pad 2 (packBytes b0 b1 0#8) := by
  simp [encodeText_zero, encodeGroups, tailText]

theorem encodeGroup_length (v : Variant) (b0 b1 b2 : Byte) : (encodeGroup v b0 b1 b2).length = 4 := rfl

/-- The number of symbols (R69, R82). -/
theorem encodeText_zero_length (v : Variant) (pad : Bool) (d : List Byte) :
    (encodeText v pad 0 d).length =
      4 * (d.length / 3) + (if d.length % 3 = 0 then 0 else if pad then 4 else d.length % 3 + 1) := by
  induction d using groups_induction with
  | nil => simp [encodeText_zero_nil]
  | one b0 => rw [encodeText_zero_one, encodeTail_one]; cases pad <;> simp
  | two b0 b1 => rw [encodeText_zero_two, encodeTail_two]; cases pad <;> simp
  | group b0 b1 b2 rest ih =>
    rw [encodeText_zero_group, List.length_append, ih, encodeGroup_length]
    have e1 : (b0 :: b1 :: b2 :: rest).length / 3 = rest.length / 3 + 1 := by simp only [List.length_cons]; omega
    have e2 : (b0 :: b1 :: b2 :: rest).length % 3 = rest.length % 3 := by simp only [List.length_cons]; omega
    rw [e1, e2]; omega

/-- The groups of a wrapped text up to the next terminator: with `j` groups on the line, it stands after `G - j` more. -/
theorem encodeGroups_line (v : Variant) (ll : Nat) (hll : 0 < ll) (d : List Byte) :
    ∀ j m, j + m = (ll + 3) / 4 → 0 < m →
    encodeGroups v ll (4 * j) d =
      if 3 * m ≤ d.length then
        encodeGroups v 0 0 (d.take (3 * m)) ++ crlf ++ encodeGroups v ll 0 (d.drop (3 * m))
      else encodeGroups v 0 0 d := by
  induction d using groups_induction with
  | nil => intro j m _ hm; rw [if_neg (by simp; omega)]; rfl
  | one b0 => intro j m _ hm; rw [if_neg (by simp; omega)]; rfl
  | two b0 b1 => intro j m _ hm; rw [if_neg (by simp; omega)]; rfl
  | group b0 b1 b2 rest ih =>
    intro j m hj hm
    have hlen : (b0 :: b1 :: b2 :: rest).length = rest.length + 3 := by simp
    obtain ⟨m', rfl⟩ : ∃ m', m = m' + 1 := ⟨m - 1, by omega⟩
    have ht : (b0 :: b1 :: b2 :: rest).take (3 * (m' + 1)) = b0 :: b1 :: b2 :: rest.take (3 * m') := by
      rw [show 3 * (m' + 1) = 3 * m' + 1 + 1 + 1 by omega]; simp
    have hd : (b0 :: b1 :: b2 :: rest).drop (3 * (m' + 1)) = rest.drop (3 * m') := by
      rw [show 3 * (m' + 1) = 3 * m' + 1 + 1 + 1 by omega]; simp
    rw [encodeGroups, if_pos hll, ht, hd, hlen]
    rcases Nat.eq_zero_or_pos m' with rfl | hm'
    · rw [if_pos (by omega), if_pos (by omega)]
      simp [encodeGroups]
    · rw [if_neg (by omega), show 4 * j + 4 = 4 * (j + 1) by omega, ih (j + 1) m' (by omega) hm']
      by_cases h : 3 * m' ≤ rest.length
      · rw [if_pos h, if_pos (by omega)]
        simp [encodeGroups]
      · rw [if_neg h, if_neg (by omega)]
        simp [encodeGroups]

theorem tailText_drop (v : Variant) (pad : Bool) (m : Nat) (d : List Byte) (h : 3 * m ≤ d.length) :
    tailText v pad (d.drop (3 * m)) = tailText v pad d ∧ tailText v pad (d.take (3 * m)) = [] := by
  induction m generalizing d with
  | zero => simp [tailText]
  | succ m ih =>
    match d, h with
    | b0 :: b1 :: b2 :: rest, h =>
      have h' : 3 * m ≤ rest.length := by simp only [List.length_cons] at h; omega
      rw [show 3 * (m + 1) = 3 * m + 1 + 1 + 1 by omega]
      simpa [tailText] using ih rest h'
    | [], h => simp at h
    | [_], h => simp at h; omega
    | [_, _], h => simp at h; omega

/-- A wrapped text begins with its first line (R77, R78). -/
theorem encodeText_first_line (v : Variant) (pad : Bool) (ll : Nat) (d : List Byte) (hll : 0 < ll)
    (h : 3 * ((ll + 3) / 4) ≤ d.length) :
    encodeText v pad ll d =
      encodeText v pad 0 (d.take (3 * ((ll + 3) / 4))) ++ crlf ++ encodeText v pad ll (d.drop (3 * ((ll + 3) / 4))) := by
  obtain ⟨h1, h2⟩ := tailText_drop v pad ((ll + 3) / 4) d h
  have hl := encodeGroups_line v ll hll d 0 ((ll + 3) / 4) (by omega) (by omega)
  rw [if_pos h] at hl
  have hm : (d.drop (3 * ((ll + 3) / 4))).length % 3 = d.length % 3 := by rw [List.length_drop]; omega
  rw [encodeText_eq v pad ll d, encodeText_eq v pad ll (d.drop _), encodeText_zero, h1, h2, hm,
    show (0 : Nat) = 4 * 0 by rfl, hl]
  simp

/-- A text shorter than a line has a terminator only after a tail (R80). -/
theorem encodeText_last_line (v : Variant) (pad : Bool) (ll : Nat) (d : List Byte) (hll : 0 < ll)
    (h : d.length < 3 * ((ll + 3) / 4)) :
    encodeText v pad ll d = encodeText v pad 0 d ++ (if d.length % 3 = 0 then [] else crlf) := by
  have hl := encodeGroups_line v ll hll d 0 ((ll + 3) / 4) (by omega) (by omega)
  rw [if_neg (by omega)] at hl
  rw [encodeText_eq v pad ll d, encodeText_zero, show (0 : Nat) = 4 * 0 by rfl, hl]
  by_cases h3 : d.length % 3 = 0 <;> simp [h3, hll]

/-- A property of wrapped texts, line by line. -/
theorem lines_induction (v : Variant) (pad : Bool) (ll : Nat) (hll : 0 < ll) {P : List Byte → List Byte → Prop}
    (last : ∀ d, d.length < 3 * ((ll + 3) / 4) →
      P d (encodeText v pad 0 d ++ (if d.length % 3 = 0 then [] else crlf)))
    (line : ∀ d, 3 * ((ll + 3) / 4) ≤ d.length →
      P (d.drop (3 * ((ll + 3) / 4))) (encodeText v pad ll (d.drop (3 * ((ll + 3) / 4)))) →
      P d (encodeText v pad 0 (d.take (3 * ((ll + 3) / 4))) ++ crlf
        ++ encodeText v pad ll (d.drop (3 * ((ll + 3) / 4))))) :
    ∀ n d, d.length ≤ n → P d (encodeText v pad ll d) := by
  intro n
  induction n with
  | zero =>
    intro d hd
    rw [encodeText_last_line v pad ll d hll (by omega)]
    exact last d (by omega)
  | succ n ih =>
    intro d hd
    by_cases h : 3 * ((ll + 3) / 4) ≤ d.length
    · rw [encodeText_first_line v pad ll d hll h]
      exact line d h (ih _ (by rw [List.length_drop]; omega))
    · rw [encodeText_last_line v pad ll d hll (by omega)]
      exact last d (by omega)

theorem crlf_length : crlf.length = 2 := rfl

/-- The length of a wrapped text: symbols and two bytes a terminator (R82). -/
theorem encodeText_wrapped_length (v : Variant) (pad : Bool) (ll : Nat) (hll : 0 < ll) (d : List Byte) :
    (encodeText v pad ll d).length =
      (encodeText v pad 0 d).length + 2 * (d.length / 3 / ((ll + 3) / 4) + (if d.length % 3 = 0 then 0 else 1)) := by
  refine lines_induction v pad ll hll
    (P := fun d out => out.length = (encodeText v pad 0 d).length +
      2 * (d.length / 3 / ((ll + 3) / 4) + (if d.length % 3 = 0 then 0 else 1))) ?_ ?_ d.length d (Nat.le_refl _)
  · intro d h
    have : d.length / 3 / ((ll + 3) / 4) = 0 := Nat.div_eq_of_lt (by omega)
    rw [this]
    split <;> simp [crlf_length]
  · intro d h ih
    simp only [List.length_append, ih, crlf_length]
    have hG : 0 < (ll + 3) / 4 := by omega
    rw [encodeText_zero_length, encodeText_zero_length, encodeText_zero_length]
    rw [List.length_take, List.length_drop]
    have e1 : d.length / 3 / ((ll + 3) / 4) = (d.length - 3 * ((ll + 3) / 4)) / 3 / ((ll + 3) / 4) + 1 := by
      rw [show (d.length - 3 * ((ll + 3) / 4)) / 3 = d.length / 3 - (ll + 3) / 4 by omega]
      rw [Nat.div_eq_sub_div hG (by omega)]
    rw [e1, Nat.min_eq_left h]
    generalize (d.length - 3 * ((ll + 3) / 4)) / 3 / ((ll + 3) / 4) = T
    have e2 : (d.length - 3 * ((ll + 3) / 4)) % 3 = d.length % 3 := by omega
    have e3 : 3 * ((ll + 3) / 4) % 3 = 0 := by omega
    rw [e2, if_pos e3]
    generalize (if d.length % 3 = 0 then 0 else if pad = true then 4 else d.length % 3 + 1) = X
    omega

/-- A text is never longer than six bytes a group or tail (R82, R8). -/
theorem encodeText_length_le (v : Variant) (pad : Bool) (ll : Nat) (d : List Byte) :
    (encodeText v pad ll d).length ≤ 6 * ((d.length + 2) / 3) := by
  have h0 := encodeText_zero_length v pad d
  have hX : (if d.length % 3 = 0 then 0 else if pad = true then 4 else d.length % 3 + 1) ≤
      4 * (if d.length % 3 = 0 then 0 else 1) := by
    by_cases h : d.length % 3 = 0
    · simp [h]
    · rw [if_neg h, if_neg h]; split <;> omega
  have hY : d.length / 3 + (if d.length % 3 = 0 then 0 else 1) = (d.length + 2) / 3 := by
    by_cases h : d.length % 3 = 0
    · rw [if_pos h]; omega
    · rw [if_neg h]; omega
  rcases Nat.eq_zero_or_pos ll with rfl | hll
  · rw [h0]; omega
  · rw [encodeText_wrapped_length v pad ll hll, h0]
    have : d.length / 3 / ((ll + 3) / 4) ≤ d.length / 3 := Nat.div_le_self _ _
    omega

/-- What holds of every byte of the unwrapped text and of CR and LF holds of every byte of a wrapped one. -/
theorem encodeText_mem (v : Variant) (pad : Bool) (ll : Nat) (d : List Byte) (c : Byte) (hc : c ∈ encodeText v pad ll d) :
    (∃ d', c ∈ encodeText v pad 0 d') ∨ (0 < ll ∧ c ∈ crlf) := by
  rcases Nat.eq_zero_or_pos ll with rfl | hll
  · exact .inl ⟨d, hc⟩
  · refine lines_induction v pad ll hll
      (P := fun _ out => c ∈ out → (∃ d', c ∈ encodeText v pad 0 d') ∨ (0 < ll ∧ c ∈ crlf)) ?_ ?_ d.length d (Nat.le_refl _) hc
    · intro d _ h
      rcases List.mem_append.1 h with h | h
      · exact .inl ⟨d, h⟩
      · split at h
        · simp at h
        · exact .inr ⟨hll, h⟩
    · intro d _ ih h
      rcases List.mem_append.1 h with h | h
      · rcases List.mem_append.1 h with h | h
        · exact .inl ⟨_, h⟩
        · exact .inr ⟨hll, h⟩
      · exact ih h

/-- The bytes of an unwrapped text (R83). -/
theorem encodeText_zero_mem (v : Variant) (pad : Bool) (d : List Byte) :
    ∀ c ∈ encodeText v pad 0 d, (∃ i : Sym, c = fwd v i) ∨ (c = padSymbol ∧ pad = true) := by
  induction d using groups_induction with
  | nil => simp [encodeText_zero_nil]
  | one b0 => rw [encodeText_zero_one, encodeTail_one]; cases pad <;> simp
  | two b0 b1 => rw [encodeText_zero_two, encodeTail_two]; cases pad <;> simp
  | group b0 b1 b2 rest ih =>
    rw [encodeText_zero_group]
    intro c hc
    rcases List.mem_append.1 hc with h | h
    · left
      simp only [encodeGroup, List.mem_cons, List.not_mem_nil, or_false] at h
      rcases h with h | h | h | h <;> exact ⟨_, h⟩
    · exact ih c h

end Sys2Proof.Machine
end

