-- ==== Sys2Proof/Laws/Decoder.lean ====
section
/-! SUPPORT. The laws of the decoder: sanitize, the pad count, the length of what the groups supply, and the decoding of encoded
text group by group. -/

namespace Sys2Proof.Machine

/-- Induction over a list in groups of four. -/
theorem quads_induction {P : List Byte → Prop} (nil : P []) (one : ∀ a, P [a]) (two : ∀ a b, P [a, b])
    (three : ∀ a b c, P [a, b, c]) (group : ∀ a b c d rest, P rest → P (a :: b :: c :: d :: rest)) : ∀ s, P s
  | [] => nil
  | [a] => one a
  | [a, b] => two a b
  | [a, b, c] => three a b c
  | a :: b :: c :: d :: rest => group a b c d rest (quads_induction nil one two three group rest)

/-! ### Sanitize -/

theorem sanitize_append (v : Variant) (s t : List Byte) : sanitize v (s ++ t) = sanitize v s ++ sanitize v t :=
  List.filter_append ..

theorem sanitize_of_kept (v : Variant) (t : List Byte) (h : ∀ c ∈ t, isKept v c = true) : sanitize v t = t :=
  List.filter_eq_self.2 h

/-- Sanitize strips a line terminator (R85). -/
theorem sanitize_crlf (v : Variant) : sanitize v crlf = [] := by cases v <;> decide

theorem sanitize_idem (v : Variant) (t : List Byte) : sanitize v (sanitize v t) = sanitize v t :=
  sanitize_of_kept v _ fun _ hc => (List.mem_filter.1 hc).2

theorem sanitize_length_le (v : Variant) (t : List Byte) : (sanitize v t).length ≤ t.length :=
  List.length_filter_le ..

/-- Sanitize leaves an unwrapped text as it is. -/
theorem sanitize_encodeText_zero (v : Variant) (pad : Bool) (d : List Byte) :
    sanitize v (encodeText v pad 0 d) = encodeText v pad 0 d := by
  refine sanitize_of_kept v _ fun c hc => ?_
  rcases encodeText_zero_mem v pad d c hc with ⟨i, rfl⟩ | ⟨rfl, -⟩
  · exact isKept_fwd v i
  · exact isKept_pad v

theorem encodeText_zero_append (v : Variant) (pad : Bool) (m : Nat) (d : List Byte) (h : 3 * m ≤ d.length) :
    encodeText v pad 0 (d.take (3 * m)) ++ encodeText v pad 0 (d.drop (3 * m)) = encodeText v pad 0 d := by
  induction m generalizing d with
  | zero => simp [encodeText_zero_nil]
  | succ m ih =>
    match d, h with
    | b0 :: b1 :: b2 :: rest, h =>
      have h' : 3 * m ≤ rest.length := by simp only [List.length_cons] at h; omega
      rw [show 3 * (m + 1) = 3 * m + 1 + 1 + 1 by omega]
      simp only [List.take_succ_cons, List.drop_succ_cons, encodeText_zero_group, List.append_assoc, ih rest h']
    | [], h => simp at h
    | [_], h => simp at h; omega
    | [_, _], h => simp at h; omega

/-- Sanitize takes a wrapped text back to the unwrapped one. -/
theorem sanitize_encodeText (v : Variant) (pad : Bool) (ll : Nat) (d : List Byte) :
    sanitize v (encodeText v pad ll d) = encodeText v pad 0 d := by
  rcases Nat.eq_zero_or_pos ll with rfl | hll
  · exact sanitize_encodeText_zero v pad d
  · refine lines_induction v pad ll hll (P := fun d out => sanitize v out = encodeText v pad 0 d) ?_ ?_ d.length d
      (Nat.le_refl _)
    · intro d _
      rw [sanitize_append, sanitize_encodeText_zero]
      split
      · exact List.append_nil _
      · rw [sanitize_crlf, List.append_nil]
    · intro d h ih
      rw [sanitize_append, sanitize_append, sanitize_crlf, ih, sanitize_encodeText_zero, List.append_nil,
        encodeText_zero_append v pad _ d h]

/-! ### Padding -/

theorem padCount_false (s : List Byte) : padCount false s = 0 := by simp [padCount]

/-- The pad count looks at the last two symbols (R71). -/
theorem padCount_append_two (s : List Byte) (a b : Byte) :
    padCount true (s ++ [a, b]) = if b = padSymbol ∧ a = padSymbol then 2 else if b = padSymbol then 1 else 0 := by
  simp [padCount]

theorem padCount_append (s t : List Byte) (ht : 2 ≤ t.length) : padCount true (s ++ t) = padCount true t := by
  obtain ⟨u, a, b, rfl⟩ : ∃ u a b, t = u ++ [a, b] := by
    refine ⟨t.take (t.length - 2), t[t.length - 2], t[t.length - 1], ?_⟩
    conv_lhs => rw [← List.take_append_drop (t.length - 2) t]
    congr 1
    apply List.ext_getElem
    · simp; omega
    · intro i h1 h2
      simp at h2
      have : i = 0 ∨ i = 1 := by omega
      rcases this with rfl | rfl
      · simp
      · simp; congr 1; omega
  rw [← List.append_assoc, padCount_append_two, padCount_append_two]

theorem padCount_le_two (pad : Bool) (s : List Byte) : padCount pad s ≤ 2 := by
  unfold padCount
  split
  · omega
  · split
    · split
      · omega
      · split <;> omega
    · split <;> omega
    · omega

/-- The pad count of encoded text (R68, R71). -/
theorem padCount_encodeText (v : Variant) (d : List Byte) :
    padCount true (encodeText v true 0 d) = if d.length % 3 = 0 then 0 else 3 - d.length % 3 := by
  induction d using groups_induction with
  | nil => rw [encodeText_zero_nil]; rfl
  | one b0 =>
    rw [encodeText_zero_one, encodeTail_one]
    exact padCount_append_two [_, _] padSymbol padSymbol
  | two b0 b1 =>
    rw [encodeText_zero_two, encodeTail_two]
    have h := padCount_append_two [fwd v (slice (packBytes b0 b1 0#8) 0), fwd v (slice (packBytes b0 b1 0#8) 1)]
      (fwd v (slice (packBytes b0 b1 0#8) 2)) padSymbol
    simpa [fwd_ne_pad] using h
  | group b0 b1 b2 rest ih =>
    have e2 : (b0 :: b1 :: b2 :: rest).length % 3 = rest.length % 3 := by simp only [List.length_cons]; omega
    rw [encodeText_zero_group, e2, ← ih]
    by_cases hr : rest = []
    · subst hr
      rw [encodeText_zero_nil, List.append_nil]
      have h := padCount_append_two [fwd v (slice (packBytes b0 b1 b2) 0), fwd v (slice (packBytes b0 b1 b2) 1)]
        (fwd v (slice (packBytes b0 b1 b2) 2)) (fwd v (slice (packBytes b0 b1 b2) 3))
      rw [if_neg (fun hc => fwd_ne_pad _ _ hc.1), if_neg (fwd_ne_pad _ _)] at h
      exact h
    · refine padCount_append _ _ ?_
      have := List.length_pos_iff.2 hr
      rw [encodeText_zero_length]
      split
      · omega
      · simp only [if_true]; omega

/-! ### Unpack -/

theorem unpackGroup_length (u0 u1 u2 u3 : Sym) : (unpackGroup u0 u1 u2 u3).length = 3 := rfl

/-- The groups supply three bytes each (R90). -/
theorem unpack_length (v : Variant) (s : List Byte) : (unpack v s).length = 3 * ((s.length + 3) / 4) := by
  induction s using quads_induction with
  | nil => rfl
  | one => simp [unpack, unpackGroup_length]
  | two => simp [unpack, unpackGroup_length]
  | three => simp [unpack, unpackGroup_length]
  | group a b c d rest ih =>
    simp only [unpack, List.length_append, ih, unpackGroup_length, List.length_cons]; omega

/-- The output never needs more than the groups supply, nor more than the symbols (R73). -/
theorem outLenOf_le (pad : Bool) (s : List Byte) :
    outLenOf pad s ≤ 3 * ((s.length + 3) / 4) ∧ outLenOf pad s ≤ s.length := by
  unfold outLenOf; omega

theorem unpack_encodeGroup (v : Variant) (b0 b1 b2 : Byte) (rest : List Byte) :
    unpack v (encodeGroup v b0 b1 b2 ++ rest) = b0 :: b1 :: b2 :: unpack v rest := by
  have h := unpackGroup_slices b0 b1 b2
  simp only [encodeGroup, List.cons_append, List.nil_append, unpack, symbolValue_fwd, h]

/-- What the groups of encoded text supply begins with the encoded bytes. -/
theorem unpack_encodeText (v : Variant) (pad : Bool) (d : List Byte) :
    ∃ junk, unpack v (encodeText v pad 0 d) = d ++ junk := by
  induction d using groups_induction with
  | nil => exact ⟨[], by rw [encodeText_zero_nil]; rfl⟩
  | one b0 =>
    have h := unpackGroup_slices b0 0#8 0#8
    obtain ⟨h3, h2⟩ := slice_tail_zero b0 0#8
    rw [h3, h2] at h
    refine ⟨[0#8, 0#8], ?_⟩
    rw [encodeText_zero_one, encodeTail_one]
    cases pad <;> simp [unpack, symbolValue_fwd, symbolValue_pad, h]
  | two b0 b1 =>
    have h := unpackGroup_slices b0 b1 0#8
    obtain ⟨h3, -⟩ := slice_tail_zero b0 b1
    rw [h3] at h
    refine ⟨[0#8], ?_⟩
    rw [encodeText_zero_two, encodeTail_two]
    cases pad <;> simp [unpack, symbolValue_fwd, symbolValue_pad, h]
  | group b0 b1 b2 rest ih =>
    obtain ⟨junk, ih⟩ := ih
    exact ⟨junk, by rw [encodeText_zero_group, unpack_encodeGroup, ih]; rfl⟩

/-- The size computed for encoded text is the number of encoded bytes (R72). -/
theorem outLenOf_encodeText (v : Variant) (pad : Bool) (d : List Byte) :
    outLenOf pad (encodeText v pad 0 d) = d.length := by
  unfold outLenOf
  rw [encodeText_zero_length]
  cases pad
  · rw [padCount_false]
    split
    · omega
    · simp; omega
  · rw [padCount_encodeText]
    split
    · omega
    · simp; omega

theorem lengthOk_encodeText (v : Variant) (pad : Bool) (d : List Byte) :
    lengthOk pad (encodeText v pad 0 d).length = true := by
  rw [encodeText_zero_length]
  cases pad
  · rfl
  · simp only [lengthOk, Bool.not_true, Bool.false_or, beq_iff_eq]
    split
    · omega
    · simp

/-- What DECODE answers on sanitized text `s` (R84). -/
theorem decodeText_eq (v : Variant) (pad : Bool) (t : List Byte) :
    decodeText v pad t =
      if lengthOk pad (sanitize v t).length then
        .ok ((unpack v (sanitize v t)).take (outLenOf pad (sanitize v t)))
      else .error .lengthError := rfl

theorem lengthOk_eq (pad : Bool) (n : Nat) : lengthOk pad n = true ↔ pad = false ∨ n % 4 = 0 := by
  cases pad <;> simp [lengthOk]

theorem decoded_length (v : Variant) (pad : Bool) (s : List Byte) :
    ((unpack v s).take (outLenOf pad s)).length = outLenOf pad s := by
  rw [List.length_take, unpack_length]
  exact Nat.min_eq_left (outLenOf_le pad s).1

/-- No result of DECODE is longer than its text (R73). -/
theorem decodeText_length_le {v : Variant} {pad : Bool} {t out : List Byte} (h : decodeText v pad t = .ok out) :
    out.length ≤ t.length := by
  rw [decodeText_eq] at h
  split at h
  · cases h
    rw [decoded_length]
    exact Nat.le_trans (outLenOf_le pad _).2 (sanitize_length_le v t)
  · cases h

end Sys2Proof.Machine
end

