-- ==== Sys2Proof/Laws/Memory.lean ====
section
/-! SUPPORT. The laws of the byte buffers: a read after a write, the canonical form, and the bytes a command takes. -/

namespace Sys2Proof.Machine

@[simp] theorem memLookup_nil (a : Nat) : memLookup [] a = none := rfl

theorem memLookup_cons (k : Nat) (b : Byte) (m : Memory) (a : Nat) :
    memLookup ((k, b) :: m) a = if k = a then some b else memLookup m a := rfl

/-- A read after a write gives the value written, and a write leaves every other index alone. -/
theorem memLookup_memStore (m : Memory) (a : Nat) (b : Byte) (x : Nat) :
    memLookup (memStore m a b) x = if x = a then some b else memLookup m x := by
  induction m with
  | nil => simp [memStore, memLookup_cons, eq_comm]
  | cons c rest ih =>
    obtain ⟨k, c⟩ := c
    simp only [memStore]
    split
    · simp only [memLookup_cons]; grind
    · split
      · simp only [memLookup_cons]; grind
      · simp only [memLookup_cons, ih]; grind

/-- A store lists nothing but the stored pair and pairs listed before. -/
theorem mem_memStore {m : Memory} {a : Nat} {b : Byte} {c : Host.Cell} (h : c ∈ memStore m a b) :
    c = (a, b) ∨ c ∈ m := by
  induction m with
  | nil => simpa [memStore] using h
  | cons d rest ih =>
    obtain ⟨k, d⟩ := d
    simp only [memStore] at h
    split at h
    · simpa using h
    · split at h
      · simp only [List.mem_cons] at h ⊢; tauto
      · simp only [List.mem_cons] at h ⊢
        rcases h with h | h
        · exact .inr (.inl h)
        · rcases ih h with h | h <;> tauto

/-- A store keeps the canonical form. -/
theorem memStore_wf {m : Memory} (h : Memory.wf m) (a : Nat) (b : Byte) : Memory.wf (memStore m a b) := by
  induction m with
  | nil => simp [memStore, Memory.wf]
  | cons d rest ih =>
    obtain ⟨k, d⟩ := d
    simp only [Memory.wf, List.pairwise_cons] at h
    simp only [memStore]
    split
    · rename_i hk
      refine List.pairwise_cons.2 ⟨fun c hc => ?_, List.pairwise_cons.2 h⟩
      rcases List.mem_cons.1 hc with rfl | hc
      · exact hk
      · exact Nat.lt_trans hk (h.1 c hc)
    · split
      · rename_i _ hk
        subst hk
        exact List.pairwise_cons.2 h
      · rename_i h1 h2
        refine List.pairwise_cons.2 ⟨fun c hc => ?_, ih h.2⟩
        rcases mem_memStore hc with rfl | hc
        · simp only; omega
        · exact h.1 c hc

/-- A list of bytes stored from an index on: its indexes read it, and every other index reads as before. -/
theorem memLookup_memStoreList (m : Memory) (a : Nat) (bs : List Byte) (x : Nat) :
    memLookup (memStoreList m a bs) x = if a ≤ x ∧ x < a + bs.length then bs[x - a]? else memLookup m x := by
  induction bs generalizing m a with
  | nil => simp [memStoreList]
  | cons b bs ih =>
    simp only [memStoreList, ih, memLookup_memStore, List.length_cons]
    by_cases h1 : x = a
    · subst h1; simp
    · by_cases h2 : a + 1 ≤ x ∧ x < a + 1 + bs.length
      · have : x - a = (x - (a + 1)) + 1 := by omega
        rw [if_pos h2, if_pos (by omega), this]; simp
      · rw [if_neg h2, if_neg h1, if_neg (by omega)]

theorem mem_memStoreList {m : Memory} {a : Nat} {bs : List Byte} {c : Host.Cell} (h : c ∈ memStoreList m a bs) :
    c ∈ m ∨ c.1 < a + bs.length := by
  induction bs generalizing m a with
  | nil => exact .inl h
  | cons b bs ih =>
    simp only [memStoreList] at h
    rcases ih h with h | h
    · rcases mem_memStore h with rfl | h
      · right; simp
      · exact .inl h
    · right; simp only [List.length_cons]; omega

theorem memStoreList_wf {m : Memory} (h : Memory.wf m) (a : Nat) (bs : List Byte) :
    Memory.wf (memStoreList m a bs) := by
  induction bs generalizing m a with
  | nil => exact h
  | cons b bs ih => exact ih (memStore_wf h a b) (a + 1)

/-- A byte that reads a value is listed. -/
theorem mem_of_memLookup {m : Memory} {a : Nat} {b : Byte} (h : memLookup m a = some b) : (a, b) ∈ m := by
  induction m with
  | nil => simp at h
  | cons d rest ih =>
    obtain ⟨k, d⟩ := d
    rw [memLookup_cons] at h
    split at h
    · rename_i hk; subst hk; simp_all
    · exact List.mem_cons_of_mem _ (ih h)

/-- What a command takes is the list of the bytes that stand there. -/
theorem memTake_eq_some {m : Memory} {a n : Nat} {d : List Byte} :
    memTake m a n = some d ↔ d.length = n ∧ Holds m a d := by
  induction n generalizing a d with
  | zero =>
    simp only [memTake, Option.some.injEq, List.length_eq_zero_iff]
    constructor
    · rintro rfl; exact ⟨rfl, fun k hk => absurd hk (by simp)⟩
    · rintro ⟨rfl, -⟩; rfl
  | succ n ih =>
    simp only [memTake]
    constructor
    · intro h
      split at h
      · rename_i b bs h1 h2
        cases h
        obtain ⟨hl, hh⟩ := ih.1 h2
        refine ⟨by simp [hl], fun k hk => ?_⟩
        cases k with
        | zero => simpa using h1
        | succ k =>
          have := hh k (by simpa using hk)
          simpa [Nat.add_assoc, Nat.add_comm 1 k] using this
      · cases h
    · rintro ⟨hl, hh⟩
      cases d with
      | nil => simp at hl
      | cons b bs =>
        have h1 : memLookup m a = some b := by simpa using hh 0 (by simp)
        have h2 : memTake m (a + 1) n = some bs := ih.2 ⟨by simpa using hl, fun k hk => by
          have := hh (k + 1) (by simpa using hk)
          simpa [Nat.add_assoc, Nat.add_comm 1 k] using this⟩
        simp [h1, h2]

/-- A command finds no input exactly if some byte of it holds no value. -/
theorem memTake_eq_none {m : Memory} {a n : Nat} :
    memTake m a n = none ↔ ∃ i, i < n ∧ memLookup m (a + i) = none := by
  induction n generalizing a with
  | zero => simp [memTake]
  | succ n ih =>
    simp only [memTake]
    constructor
    · intro h
      split at h
      · cases h
      · rename_i hx
        by_cases h1 : memLookup m a = none
        · exact ⟨0, by omega, h1⟩
        · by_cases h2 : memTake m (a + 1) n = none
          · obtain ⟨i, hi, hn⟩ := ih.1 h2
            exact ⟨i + 1, by omega, by rw [← hn]; congr 1; omega⟩
          · obtain ⟨b, hb⟩ := Option.ne_none_iff_exists'.1 h1
            obtain ⟨bs, hbs⟩ := Option.ne_none_iff_exists'.1 h2
            exact absurd hbs (hx b bs hb)
    · rintro ⟨i, hi, hn⟩
      cases i with
      | zero => rw [Nat.add_zero] at hn; simp [hn]
      | succ i =>
        have : memTake m (a + 1) n = none := ih.2 ⟨i, by omega, by rw [← hn]; congr 1; omega⟩
        rw [this]; split <;> simp_all

/-- Two buffers that agree on a command's range give it the same input. -/
theorem memTake_congr {m m' : Memory} {a n : Nat}
    (h : ∀ i, i < n → memLookup m' (a + i) = memLookup m (a + i)) : memTake m' a n = memTake m a n := by
  induction n generalizing a with
  | zero => rfl
  | succ n ih =>
    have h0 := h 0 (by omega)
    rw [Nat.add_zero] at h0
    simp only [memTake, h0]
    rw [ih fun i hi => by have := h (i + 1) (by omega); simpa [Nat.add_assoc, Nat.add_comm 1 i] using this]

end Sys2Proof.Machine
end

