-- ==== Sys2Proof/Laws/State.lean ====
section
/-! SUPPORT. One lemma per field per named update of State, true by rfl, so that no later proof unfolds a record update. -/

namespace Sys2Proof.Machine

/-! ### nextDraw -/

@[simp] theorem nextDraw_cfg (s : State) : (nextDraw s).cfg = s.cfg := rfl
@[simp] theorem nextDraw_ctrl (s : State) : (nextDraw s).ctrl = s.ctrl := rfl
@[simp] theorem nextDraw_lineLen (s : State) : (nextDraw s).lineLen = s.lineLen := rfl
@[simp] theorem nextDraw_inLen (s : State) : (nextDraw s).inLen = s.inLen := rfl
@[simp] theorem nextDraw_status (s : State) : (nextDraw s).status = s.status := rfl
@[simp] theorem nextDraw_outLen (s : State) : (nextDraw s).outLen = s.outLen := rfl
@[simp] theorem nextDraw_ibuf (s : State) : (nextDraw s).ibuf = s.ibuf := rfl
@[simp] theorem nextDraw_obuf (s : State) : (nextDraw s).obuf = s.obuf := rfl
@[simp] theorem nextDraw_pend (s : State) : (nextDraw s).pend = s.pend := rfl
@[simp] theorem nextDraw_schedule (s : State) : (nextDraw s).schedule = s.schedule := rfl
@[simp] theorem nextDraw_responses (s : State) : (nextDraw s).responses = s.responses := rfl
@[simp] theorem nextDraw_draws (s : State) : (nextDraw s).draws = s.draws + 1 := rfl

/-! ### respond -/

@[simp] theorem respond_cfg (r : Response) (s : State) : (respond r s).cfg = s.cfg := rfl
@[simp] theorem respond_ctrl (r : Response) (s : State) : (respond r s).ctrl = s.ctrl := rfl
@[simp] theorem respond_lineLen (r : Response) (s : State) : (respond r s).lineLen = s.lineLen := rfl
@[simp] theorem respond_inLen (r : Response) (s : State) : (respond r s).inLen = s.inLen := rfl
@[simp] theorem respond_status (r : Response) (s : State) : (respond r s).status = s.status := rfl
@[simp] theorem respond_outLen (r : Response) (s : State) : (respond r s).outLen = s.outLen := rfl
@[simp] theorem respond_ibuf (r : Response) (s : State) : (respond r s).ibuf = s.ibuf := rfl
@[simp] theorem respond_obuf (r : Response) (s : State) : (respond r s).obuf = s.obuf := rfl
@[simp] theorem respond_pend (r : Response) (s : State) : (respond r s).pend = s.pend := rfl
@[simp] theorem respond_schedule (r : Response) (s : State) : (respond r s).schedule = s.schedule := rfl
@[simp] theorem respond_responses (r : Response) (s : State) : (respond r s).responses = r :: s.responses := rfl
@[simp] theorem respond_draws (r : Response) (s : State) : (respond r s).draws = s.draws := rfl

/-! ### completeError -/

@[simp] theorem completeError_cfg (e : ErrCode) (s : State) : (completeError e s).cfg = s.cfg := rfl
@[simp] theorem completeError_ctrl (e : ErrCode) (s : State) : (completeError e s).ctrl = s.ctrl := rfl
@[simp] theorem completeError_lineLen (e : ErrCode) (s : State) : (completeError e s).lineLen = s.lineLen := rfl
@[simp] theorem completeError_inLen (e : ErrCode) (s : State) : (completeError e s).inLen = s.inLen := rfl
@[simp] theorem completeError_status (e : ErrCode) (s : State) : (completeError e s).status = statusError e := rfl
@[simp] theorem completeError_outLen (e : ErrCode) (s : State) : (completeError e s).outLen = 0#32 := rfl
@[simp] theorem completeError_ibuf (e : ErrCode) (s : State) : (completeError e s).ibuf = s.ibuf := rfl
@[simp] theorem completeError_obuf (e : ErrCode) (s : State) : (completeError e s).obuf = s.obuf := rfl
@[simp] theorem completeError_pend (e : ErrCode) (s : State) : (completeError e s).pend = none := rfl
@[simp] theorem completeError_schedule (e : ErrCode) (s : State) : (completeError e s).schedule = s.schedule := rfl
@[simp] theorem completeError_responses (e : ErrCode) (s : State) : (completeError e s).responses = s.responses := rfl
@[simp] theorem completeError_draws (e : ErrCode) (s : State) : (completeError e s).draws = s.draws := rfl

/-! ### clearResult -/

@[simp] theorem clearResult_cfg (s : State) : (clearResult s).cfg = s.cfg := rfl
@[simp] theorem clearResult_ctrl (s : State) : (clearResult s).ctrl = s.ctrl := rfl
@[simp] theorem clearResult_lineLen (s : State) : (clearResult s).lineLen = s.lineLen := rfl
@[simp] theorem clearResult_inLen (s : State) : (clearResult s).inLen = s.inLen := rfl
@[simp] theorem clearResult_status (s : State) : (clearResult s).status = statusClear := rfl
@[simp] theorem clearResult_outLen (s : State) : (clearResult s).outLen = 0#32 := rfl
@[simp] theorem clearResult_ibuf (s : State) : (clearResult s).ibuf = s.ibuf := rfl
@[simp] theorem clearResult_obuf (s : State) : (clearResult s).obuf = s.obuf := rfl
@[simp] theorem clearResult_pend (s : State) : (clearResult s).pend = s.pend := rfl
@[simp] theorem clearResult_schedule (s : State) : (clearResult s).schedule = s.schedule := rfl
@[simp] theorem clearResult_responses (s : State) : (clearResult s).responses = s.responses := rfl
@[simp] theorem clearResult_draws (s : State) : (clearResult s).draws = s.draws := rfl

/-! ### completeOk -/

@[simp] theorem completeOk_cfg (out : List Byte) (s : State) : (completeOk out s).cfg = s.cfg := rfl
@[simp] theorem completeOk_ctrl (out : List Byte) (s : State) : (completeOk out s).ctrl = s.ctrl := rfl
@[simp] theorem completeOk_lineLen (out : List Byte) (s : State) : (completeOk out s).lineLen = s.lineLen := rfl
@[simp] theorem completeOk_inLen (out : List Byte) (s : State) : (completeOk out s).inLen = s.inLen := rfl
@[simp] theorem completeOk_status (out : List Byte) (s : State) : (completeOk out s).status = statusDone := rfl
@[simp] theorem completeOk_outLen (out : List Byte) (s : State) : (completeOk out s).outLen = BitVec.ofNat 32 out.length := rfl
@[simp] theorem completeOk_ibuf (out : List Byte) (s : State) : (completeOk out s).ibuf = s.ibuf := rfl
@[simp] theorem completeOk_obuf (out : List Byte) (s : State) : (completeOk out s).obuf = memStoreList s.obuf 0 out := rfl
@[simp] theorem completeOk_pend (out : List Byte) (s : State) : (completeOk out s).pend = none := rfl
@[simp] theorem completeOk_schedule (out : List Byte) (s : State) : (completeOk out s).schedule = s.schedule := rfl
@[simp] theorem completeOk_responses (out : List Byte) (s : State) : (completeOk out s).responses = s.responses := rfl
@[simp] theorem completeOk_draws (out : List Byte) (s : State) : (completeOk out s).draws = s.draws := rfl

/-! ### resetEvent -/

@[simp] theorem resetEvent_cfg (s : State) : (resetEvent s).cfg = s.cfg := rfl
@[simp] theorem resetEvent_ctrl (s : State) : (resetEvent s).ctrl = State.reset.ctrl := rfl
@[simp] theorem resetEvent_lineLen (s : State) : (resetEvent s).lineLen = State.reset.lineLen := rfl
@[simp] theorem resetEvent_inLen (s : State) : (resetEvent s).inLen = State.reset.inLen := rfl
@[simp] theorem resetEvent_status (s : State) : (resetEvent s).status = State.reset.status := rfl
@[simp] theorem resetEvent_outLen (s : State) : (resetEvent s).outLen = State.reset.outLen := rfl
@[simp] theorem resetEvent_ibuf (s : State) : (resetEvent s).ibuf = State.reset.ibuf := rfl
@[simp] theorem resetEvent_obuf (s : State) : (resetEvent s).obuf = State.reset.obuf := rfl
@[simp] theorem resetEvent_pend (s : State) : (resetEvent s).pend = State.reset.pend := rfl
@[simp] theorem resetEvent_schedule (s : State) : (resetEvent s).schedule = s.schedule := rfl
@[simp] theorem resetEvent_responses (s : State) : (resetEvent s).responses = s.responses := rfl
@[simp] theorem resetEvent_draws (s : State) : (resetEvent s).draws = s.draws := rfl

/-! ### idle -/

@[simp] theorem idle_cfg (s : State) : (idle s).cfg = s.cfg := rfl
@[simp] theorem idle_ctrl (s : State) : (idle s).ctrl = s.ctrl := rfl
@[simp] theorem idle_lineLen (s : State) : (idle s).lineLen = s.lineLen := rfl
@[simp] theorem idle_inLen (s : State) : (idle s).inLen = s.inLen := rfl
@[simp] theorem idle_status (s : State) : (idle s).status = s.status := rfl
@[simp] theorem idle_outLen (s : State) : (idle s).outLen = s.outLen := rfl
@[simp] theorem idle_ibuf (s : State) : (idle s).ibuf = s.ibuf := rfl
@[simp] theorem idle_obuf (s : State) : (idle s).obuf = s.obuf := rfl
@[simp] theorem idle_pend (s : State) : (idle s).pend = none := rfl
@[simp] theorem idle_schedule (s : State) : (idle s).schedule = s.schedule := rfl
@[simp] theorem idle_responses (s : State) : (idle s).responses = s.responses := rfl
@[simp] theorem idle_draws (s : State) : (idle s).draws = s.draws := rfl

end Sys2Proof.Machine
end

