-- ==== Sys2Proof/Laws/Sequencer.lean ====
section
/-! SUPPORT. What a command can do at a state, said once: its issue, its completion, and nothing while another is pending. -/

namespace Sys2Proof.Machine

/-- The transform of an operation. -/
def transformOf : Op → Pend → List Byte → CmdResult
  | .encode => encodeTransform
  | .decode => decodeTransform

theorem exec_idle (op : Op) (s : State) (h : s.pend = none) : exec (opInstr op) s = .next (issue op s) := by
  cases op <;> simp [opInstr, exec, execEncode, execDecode, commandStep, h]

theorem exec_pending (s : State) (p : Pend) (h : s.pend = some p) :
    exec (opInstr p.op) s = complete (transformOf p.op) p s := by
  cases hp : p.op <;> simp [opInstr, exec, execEncode, execDecode, commandStep, h, hp, transformOf]

theorem exec_pending_input (s : State) (p : Pend) (d : List Byte) (h : s.pend = some p) (hd : inputOf p s = some d) :
    exec (opInstr p.op) s = .next (finish (transformOf p.op p d) s) := by
  rw [exec_pending s p h, complete, hd]

theorem inputOf_eq_some {p : Pend} {s : State} {d : List Byte} :
    inputOf p s = some d ↔ d.length = p.inLen.toNat ∧ Holds s.ibuf 0 d := memTake_eq_some

theorem inputOf_eq_none {p : Pend} {s : State} :
    inputOf p s = none ↔ ∃ i, i < p.inLen.toNat ∧ memLookup s.ibuf i = none := by
  simpa [inputOf] using memTake_eq_none (m := s.ibuf) (a := 0) (n := p.inLen.toNat)

theorem transformOf_cases (p : Pend) (d : List Byte) :
    (∃ out, transformOf p.op p d = .ok out) ∨
    (transformOf p.op p d = .error .lengthError ∧ p.op = .decode ∧ p.padding = true ∧
      (sanitize p.variant d).length % 4 ≠ 0) := by
  cases hp : p.op
  · exact .inl ⟨_, rfl⟩
  · simp only [transformOf, decodeTransform, decodeText_eq]
    split
    · exact .inl ⟨_, rfl⟩
    · rename_i h
      rw [lengthOk_eq, not_or, Bool.not_eq_false] at h
      exact .inr ⟨by simp, trivial, h.1, h.2⟩

/-- A result is never longer than the largest output of its input (R82, R73). -/
theorem transformOf_length {p : Pend} {d out : List Byte} (h : transformOf p.op p d = .ok out) :
    out.length ≤ 6 * ((d.length + 2) / 3) := by
  cases hp : p.op <;> rw [hp] at h
  · cases h; exact encodeText_length_le ..
  · have := decodeText_length_le h; omega

/-- Everything a command that answers a next state can have done. -/
theorem exec_cases {i : Instr} {s t : State} (h : exec i s = .next t) :
    (s.pend = none ∧ (∃ op, i = opInstr op) ∧ s.cfg.ibufSize < s.inLen.toNat ∧
      t = completeError .paramError (clearResult s)) ∨
    (s.pend = none ∧ ∃ op, i = opInstr op ∧ s.inLen.toNat ≤ s.cfg.ibufSize ∧
      t = { clearResult s with pend := some (latch op s) }) ∨
    (s.pend = none ∧ (i = .reservedOp0 ∨ i = .reservedOp3) ∧ t = completeError .commandError (clearResult s)) ∨
    (∃ p d, s.pend = some p ∧ i = opInstr p.op ∧ inputOf p s = some d ∧ t = finish (transformOf p.op p d) s) ∨
    (∃ p, s.pend = some p ∧ i ≠ opInstr p.op ∧ t = s) := by
  cases hs : s.pend with
  | none =>
    rcases i with _ | _ | _ | _
    · have := exec_idle .encode s hs
      rw [show opInstr .encode = Instr.encode from rfl, h] at this
      cases this
      unfold issue
      split
      · exact .inl ⟨rfl, ⟨.encode, rfl⟩, ‹_›, rfl⟩
      · exact .inr (.inl ⟨rfl, .encode, rfl, by omega, rfl⟩)
    · have := exec_idle .decode s hs
      rw [show opInstr .decode = Instr.decode from rfl, h] at this
      cases this
      unfold issue
      split
      · exact .inl ⟨rfl, ⟨.decode, rfl⟩, ‹_›, rfl⟩
      · exact .inr (.inl ⟨rfl, .decode, rfl, by omega, rfl⟩)
    · simp only [exec, execReservedOp0, reservedStep, hs] at h
      cases h
      exact .inr (.inr (.inl ⟨rfl, .inl rfl, rfl⟩))
    · simp only [exec, execReservedOp3, reservedStep, hs] at h
      cases h
      exact .inr (.inr (.inl ⟨rfl, .inr rfl, rfl⟩))
  | some p =>
    by_cases hi : i = opInstr p.op
    · subst hi
      cases hd : inputOf p s with
      | none => rw [exec_pending s p hs, complete, hd] at h; cases h
      | some d =>
        rw [exec_pending_input s p d hs hd] at h
        cases h
        exact .inr (.inr (.inr (.inl ⟨p, d, rfl, rfl, hd, rfl⟩)))
    · refine .inr (.inr (.inr (.inr ⟨p, rfl, hi, ?_⟩)))
      cases hp : p.op <;> rw [hp] at hi <;> cases i <;>
        simp_all [opInstr, exec, execEncode, execDecode, execReservedOp0, execReservedOp3, reservedStep, commandStep]

/-- What the completion of a pending command leaves (R98). -/
theorem finish_cases (p : Pend) (d : List Byte) (s : State) :
    (∃ out, transformOf p.op p d = .ok out ∧ finish (transformOf p.op p d) s = completeOk out s) ∨
    (transformOf p.op p d = .error .lengthError ∧ finish (transformOf p.op p d) s = completeError .lengthError s) := by
  rcases transformOf_cases p d with ⟨out, h⟩ | ⟨h, -⟩
  · exact .inl ⟨out, h, by rw [h]; rfl⟩
  · exact .inr ⟨h, by rw [h]; rfl⟩

/-! ### The words of STATUS -/

theorem statusWord_error (e : ErrCode) (s : State) :
    statusWord (completeError e s) = 0x06#32 ||| errNumber e <<< 4 := by
  cases e <;> simp [statusWord, busy, statusError, bitOf, errNumber]

theorem statusWord_done (out : List Byte) (s : State) : statusWord (completeOk out s) = 0x02#32 := by
  simp [statusWord, busy, statusDone, bitOf, errNumber]

/-- Which of its values STATUS reads, from BUSY, DONE, ERR and ERRCODE (R20). -/
theorem statusReachable_iff (s : State) :
    statusWord s ∈ statusReachable ↔
      (busy s = true ∧ s.status = statusClear) ∨
      (busy s = false ∧ (s.status = statusClear ∨ s.status = statusDone ∨
        ∃ e, e ≠ .noError ∧ s.status = statusError e)) := by
  unfold statusWord
  generalize s.status = st
  obtain ⟨done, err, e⟩ := st
  cases hb : busy s <;> cases done <;> cases err <;> cases e <;>
    simp [statusReachable, bitOf, errNumber, statusClear, statusDone, statusError]

/-- BUSY is bit 0 of STATUS. -/
theorem statusWord_busy (s : State) : (statusWord s).getLsbD 0 = busy s := by
  unfold statusWord
  cases hb : busy s <;> cases s.status.done <;> cases s.status.err <;> cases s.status.errcode <;> rfl

end Sys2Proof.Machine
end

