-- ==== Sys2Proof/Laws/Bus.lean ====
section
/-! SUPPORT. What one step can do, said once, and what the host's accesses read and write. -/

namespace Sys2Proof.Machine

/-! ### The window -/

theorem windowOffset_def (c : Config) (addr : Nat) :
    windowOffset c addr = if c.base ≤ addr ∧ addr < c.base + 0x80000 then some (addr - c.base) else none := rfl

theorem windowOffset_add (c : Config) (off : Nat) (h : off < 0x80000) : windowOffset c (c.base + off) = some off := by
  rw [windowOffset_def, if_pos (by omega)]; congr 1; omega

theorem windowOffset_outside (c : Config) (addr : Nat) (h : addr < c.base ∨ c.base + 0x80000 ≤ addr) :
    windowOffset c addr = none := by
  rw [windowOffset_def, if_neg (by omega)]

theorem windowOffset_eq_some {c : Config} {addr off : Nat} (h : windowOffset c addr = some off) :
    addr = c.base + off ∧ off < 0x80000 := by
  rw [windowOffset_def] at h
  split at h
  · cases h; omega
  · cases h

theorem accessLegal_iff (off size : Nat) :
    accessLegal off size = true ↔
      (off < 0x10000 ∧ size = 4 ∧ off % 4 = 0) ∨
      (0x10000 ≤ off ∧ (size = 1 ∨ size = 2 ∨ size = 4) ∧ off % size = 0) := by
  unfold accessLegal ibufOffset
  split
  · simp; omega
  · simp [or_assoc]; omega

/-! ### Reads -/

/-- A read changes the answers and perhaps the number of draws, and nothing else (R44). -/
theorem hostRead_eq (off size : Nat) (s : State) :
    hostRead off size s =
      if accessLegal off size then
        { s with responses := .data (memRead s off size) :: s.responses, draws := (afterRead s off).draws }
      else { s with responses := .busError :: s.responses } := by
  unfold hostRead afterRead
  split
  · split <;> rfl
  · rfl

theorem afterRead_draws (off : Nat) (s : State)
    (h : busy s = false ∨ off < 0x40000 ∨ 0x40000 + s.cfg.obufSize ≤ off) : (afterRead s off).draws = s.draws := by
  unfold afterRead obufOffset
  rw [if_neg]
  rintro ⟨h1, h2, h3⟩
  rcases h with h | h | h
  · rw [h] at h3; cases h3
  · omega
  · omega

theorem laneOf_wordOfBytes_cons (b : Byte) (bs : List Byte) (k : Nat) (hk : k < 4) :
    laneOf (wordOfBytes (b :: bs)) k = if k = 0 then b else laneOf (wordOfBytes bs) (k - 1) := by
  apply BitVec.eq_of_getLsbD_eq
  intro i hi
  simp only [laneOf, wordOfBytes, BitVec.getLsbD_extractLsb', BitVec.getLsbD_or, BitVec.getLsbD_setWidth,
    BitVec.getLsbD_shiftLeft, hi, decide_true, Bool.true_and]
  split
  · subst k
    simp [hi]
    intro h; omega
  · have h1 : b.getLsbD (8 * k + i) = false := BitVec.getLsbD_of_ge _ _ (by omega)
    have h2 : 8 * k + i - 8 = 8 * (k - 1) + i := by omega
    have h3 : ¬ (8 * k + i < 8) := by omega
    have h4 : 8 * k + i < 32 := by omega
    rw [BitVec.getLsbD_extractLsb']
    simp [h1, h2, h3, h4, hi]

/-- The lanes of a word made of bytes are the bytes, and 0 above them (R38). -/
theorem laneOf_wordOfBytes (bs : List Byte) (k : Nat) (hk : k < 4) :
    laneOf (wordOfBytes bs) k = bs.getD k 0#8 := by
  induction bs generalizing k with
  | nil => simp [wordOfBytes, laneOf]
  | cons b bs ih =>
    rw [laneOf_wordOfBytes_cons b bs k hk]
    cases k with
    | zero => rfl
    | succ k => simpa using ih k (by omega)

theorem bufferBytes_getD (s : State) (off n k : Nat) :
    (bufferBytes s off n).getD k 0#8 = if k < n then bufferByte s (off + k) else 0#8 := by
  induction n generalizing off k with
  | zero => simp [bufferBytes]
  | succ n ih =>
    cases k with
    | zero => simp [bufferBytes]
    | succ k =>
      have := ih (off + 1) k
      rw [show off + 1 + k = off + (k + 1) by omega] at this
      simpa [bufferBytes] using this

/-- Lane `k` of a legal read of the buffer space (R38). -/
theorem laneOf_memRead (s : State) (off n k : Nat) (hoff : 0x10000 ≤ off) (hk : k < 4) :
    laneOf (memRead s off n) k = if k < n then bufferByte s (off + k) else 0#8 := by
  unfold memRead ibufOffset
  rw [if_neg (by omega), laneOf_wordOfBytes _ _ hk, bufferBytes_getD]

/-! ### Writes -/

theorem bufferWriteByte_def (s : State) (off : Nat) (b : Byte) :
    bufferWriteByte s off b =
      if off < 0x20000 ∧ off - 0x10000 < s.cfg.ibufSize then { s with ibuf := memStore s.ibuf (off - 0x10000) b }
      else s := rfl

theorem bufferWriteByte_eq (s : State) (off : Nat) (b : Byte) :
    bufferWriteByte s off b = { s with ibuf := (bufferWriteByte s off b).ibuf } := by
  unfold bufferWriteByte; split <;> rfl

/-- A write of the buffer space changes IBUF and nothing else. -/
theorem bufferWrite_eq (s : State) (off : Nat) (v : Word) (n : Nat) :
    bufferWrite s off v n = { s with ibuf := (bufferWrite s off v n).ibuf } := by
  induction n with
  | zero => rfl
  | succ n ih =>
    simp only [bufferWrite]
    rw [bufferWriteByte_eq, ih]

/-- What a write of the buffer space leaves in IBUF (R38, R40, R41). -/
theorem memLookup_bufferWrite (s : State) (off : Nat) (v : Word) (n i : Nat) (h : 0x10000 ≤ off) :
    memLookup (bufferWrite s off v n).ibuf i =
      if off - 0x10000 ≤ i ∧ i < off - 0x10000 + n ∧ i < s.cfg.ibufSize ∧ i < 0x10000 then
        some (laneOf v (i - (off - 0x10000)))
      else memLookup s.ibuf i := by
  induction n with
  | zero => rw [if_neg (by omega)]; rfl
  | succ n ih =>
    have hc : (bufferWrite s off v n).cfg = s.cfg := by rw [bufferWrite_eq]
    rw [bufferWrite, bufferWriteByte_def, hc]
    by_cases hin : off + n < 0x20000 ∧ off + n - 0x10000 < s.cfg.ibufSize
    · rw [if_pos hin, memLookup_memStore, ih]
      by_cases hi : i = off + n - 0x10000
      · rw [if_pos hi, if_pos (by omega), show i - (off - 0x10000) = n by omega]
      · rw [if_neg hi]
        by_cases h2 : off - 0x10000 ≤ i ∧ i < off - 0x10000 + n ∧ i < s.cfg.ibufSize ∧ i < 0x10000
        · rw [if_pos h2, if_pos (by omega)]
        · rw [if_neg h2, if_neg (by omega)]
    · rw [if_neg hin, ih]
      by_cases h2 : off - 0x10000 ≤ i ∧ i < off - 0x10000 + n ∧ i < s.cfg.ibufSize ∧ i < 0x10000
      · rw [if_pos h2, if_pos (by omega)]
      · rw [if_neg h2, if_neg (by omega)]

/-- A write of the buffer space keeps IBUF canonical and within its size. -/
theorem bufferWrite_wf (s : State) (off : Nat) (v : Word) (n : Nat) (hw : Memory.wf s.ibuf)
    (hb : ∀ c ∈ s.ibuf, c.1 < s.cfg.ibufSize) :
    Memory.wf (bufferWrite s off v n).ibuf ∧ ∀ c ∈ (bufferWrite s off v n).ibuf, c.1 < s.cfg.ibufSize := by
  induction n with
  | zero => exact ⟨hw, hb⟩
  | succ n ih =>
    have hc : (bufferWrite s off v n).cfg = s.cfg := by rw [bufferWrite_eq]
    rw [bufferWrite, bufferWriteByte_def, hc]
    split
    · rename_i h
      refine ⟨memStore_wf ih.1 _ _, fun c hc => ?_⟩
      rcases mem_memStore hc with rfl | hc
      · exact h.2
      · exact ih.2 c hc
    · exact ih

theorem bufferWriteByte_beyond (s : State) (off : Nat) (b : Byte) (h : 0x20000 ≤ off) :
    bufferWriteByte s off b = s := by
  rw [bufferWriteByte_def, if_neg (by omega)]

/-- Writes beyond the IBUF window are ignored (R34, R41). -/
theorem bufferWrite_beyond (s : State) (off : Nat) (v : Word) (n : Nat) (h : 0x20000 ≤ off) :
    bufferWrite s off v n = s := by
  induction n with
  | zero => rfl
  | succ n ih => rw [bufferWrite, ih, bufferWriteByte_beyond _ _ _ (by omega)]

/-- Everything a write that is no issue can do (R42, R99). -/
theorem memWrite_cases (s : State) (off n : Nat) (v : Word) :
    memWrite s off n v = s ∨
    (busy s = false ∧ off = ctrlOffset ∧ memWrite s off n v = { s with ctrl := ctrlOfWord v }) ∨
    (busy s = false ∧ off = lineLenOffset ∧ memWrite s off n v = { s with lineLen := v }) ∨
    (busy s = false ∧ off = inLenOffset ∧ memWrite s off n v = { s with inLen := v }) ∨
    (busy s = false ∧ 0x10000 ≤ off ∧ memWrite s off n v = bufferWrite s off v n) := by
  unfold memWrite
  by_cases hb : busy s = true
  · rw [if_pos hb]; exact .inl rfl
  · have hf : busy s = false := by simpa using hb
    rw [if_neg hb]
    by_cases hi : off < ibufOffset
    · rw [if_pos hi]
      unfold regWrite
      split
      · exact .inr (.inl ⟨hf, ‹_›, rfl⟩)
      · split
        · exact .inr (.inr (.inl ⟨hf, ‹_›, rfl⟩))
        · split
          · exact .inr (.inr (.inr (.inl ⟨hf, ‹_›, rfl⟩)))
          · exact .inl rfl
    · rw [if_neg hi]
      unfold ibufOffset at hi
      exact .inr (.inr (.inr (.inr ⟨hf, by omega, rfl⟩)))

/-! ### Steps -/

theorem step_settled {s t : State} (h : nextAction s = .settled t) : step s = .next t := by
  unfold step; rw [h]

theorem step_command {s t : State} {i : Instr} (h : nextAction s = .command i t) : step s = exec i t := by
  unfold step; rw [h]

theorem step_refused {s : State} {r : Refusal} (h : nextAction s = .refused r) : step s = .refused r := by
  unfold step; rw [h]

theorem nextAction_nil {s : State} (h : s.schedule = []) : nextAction s = codecTurn s := by
  unfold nextAction; split <;> simp_all

theorem nextAction_access {s : State} {a : Access} {rest : List Event} (h : s.schedule = .access a :: rest) :
    nextAction s = hostAccess a { s with schedule := rest } := by
  unfold nextAction; split <;> simp_all

theorem nextAction_poll {s : State} {n : Nat} {rest : List Event} (h : s.schedule = .poll n :: rest) :
    nextAction s = pollTurn n rest s := by
  unfold nextAction; split <;> simp_all

theorem nextAction_codec {s : State} {rest : List Event} (h : s.schedule = .codec :: rest) :
    nextAction s = codecTurn { s with schedule := rest } := by
  unfold nextAction; split <;> simp_all

theorem nextAction_reset {s : State} {rest : List Event} (h : s.schedule = .reset :: rest) :
    nextAction s = .settled (nextDraw (resetEvent { s with schedule := rest })) := by
  unfold nextAction; split <;> simp_all

/-- A step that is a host read at a window offset. -/
theorem step_read {s : State} {off size : Nat} {rest : List Event} (hoff : off < 0x80000)
    (h : s.schedule = .access (.read (s.cfg.base + off) size) :: rest) :
    step s = .next (hostRead off size { s with schedule := rest }) := by
  apply step_settled
  rw [nextAction_access h]
  unfold hostAccess
  simp only [windowOffset_add s.cfg off hoff]

/-- A step that is a host write at a window offset. -/
theorem nextAction_write {s : State} {off size : Nat} {v : Word} {rest : List Event} (hoff : off < 0x80000)
    (h : s.schedule = .access (.write (s.cfg.base + off) size v) :: rest) :
    nextAction s = hostWrite off size v { s with schedule := rest } := by
  rw [nextAction_access h]
  unfold hostAccess
  simp only [windowOffset_add s.cfg off hoff]

theorem hostWrite_issue {s : State} {v : Word} (h : s.pend = none) :
    hostWrite 0x0000C 4 v s = .command (decodeWord v) (nextDraw (respond .written s)) := by
  unfold hostWrite
  rw [if_pos (by decide), if_pos ⟨rfl, by simp [busy, h]⟩]

theorem hostWrite_store {s : State} {off size : Nat} {v : Word} (hl : accessLegal off size = true)
    (h : off ≠ 0x0000C ∨ busy s = true) :
    hostWrite off size v s = .settled (nextDraw (respond .written (memWrite s off size v))) := by
  unfold hostWrite
  rw [if_pos hl, if_neg]
  rintro ⟨h1, h2⟩
  rcases h with h | h
  · exact h h1
  · rw [h] at h2; cases h2

theorem hostWrite_illegal {s : State} {off size : Nat} {v : Word} (hl : accessLegal off size = false) :
    hostWrite off size v s = .settled (respond .busError s) := by
  unfold hostWrite; rw [if_neg (by simp [hl])]

theorem codecTurn_none {s : State} (h : s.pend = none) : codecTurn s = .settled s := by
  unfold codecTurn; rw [h]

theorem codecTurn_some {s : State} {p : Pend} (h : s.pend = some p) :
    codecTurn s = .command (opInstr p.op) (nextDraw s) := by
  unfold codecTurn; rw [h]

theorem pollTurn_idle {s : State} (h : s.pend = none) (n : Nat) (rest : List Event) :
    pollTurn n rest s = .settled (hostRead statusOffset 4 { s with schedule := rest }) := by
  unfold pollTurn
  split
  · rfl
  · rename_i h'; rw [h] at h'; cases h'
  · rename_i h'; rw [h] at h'; cases h'

theorem pollTurn_succ {s : State} {p : Pend} (h : s.pend = some p) (n : Nat) (rest : List Event) :
    pollTurn (n + 1) rest s = .settled (hostRead statusOffset 4 { s with schedule := .poll n :: rest }) := by
  unfold pollTurn
  split
  · rename_i h'; rw [h] at h'; cases h'
  · rename_i h'; cases h'; rfl
  · rename_i h'; cases h'

theorem pollTurn_zero {s : State} {p : Pend} (h : s.pend = some p) (rest : List Event) :
    pollTurn 0 rest s = codecTurn s := by
  unfold pollTurn
  split
  · rename_i h'; rw [h] at h'; cases h'
  · rename_i h'; cases h'
  · rfl

/-- Everything a step that answers a next state can have done (R6): a step that leaves the block alone, a host write, a reset, an
issue, or a completion. -/
theorem step_cases {s t : State} (h : step s = .next t) :
    (∃ sch rs d, t = { s with schedule := sch, responses := rs, draws := d } ∧
      (s.pend = none ∨ (∃ a rest, s.schedule = .access a :: rest) ∨ ∃ n rest, s.schedule = .poll (n + 1) :: rest)) ∨
    (∃ addr n v rest off, s.schedule = .access (.write addr n v) :: rest ∧ windowOffset s.cfg addr = some off ∧
      accessLegal off n = true ∧
      t = nextDraw (respond .written (memWrite { s with schedule := rest } off n v))) ∨
    (∃ rest, s.schedule = .reset :: rest ∧ t = nextDraw (resetEvent { s with schedule := rest })) ∨
    (∃ v rest, s.schedule = .access (.write (s.cfg.base + 0x0000C) 4 v) :: rest ∧ s.pend = none ∧
      exec (decodeWord v) { s with schedule := rest, responses := .written :: s.responses, draws := s.draws + 1 }
        = .next t) ∨
    (∃ p sch, s.pend = some p ∧
      (s.schedule = [] ∨ (∃ rest, s.schedule = .codec :: rest) ∨ ∃ rest, s.schedule = .poll 0 :: rest) ∧
      exec (opInstr p.op) { s with schedule := sch, draws := s.draws + 1 } = .next t) := by
  have read : ∀ (off n : Nat) (u : State), ∃ rs d, hostRead off n u = { u with responses := rs, draws := d } := by
    intro off n u
    rw [hostRead_eq]
    split
    · exact ⟨_, _, rfl⟩
    · exact ⟨_, u.draws, rfl⟩
  have hpend : s.pend = none ∨ ∃ p, s.pend = some p := by
    rcases s.pend with _ | p
    · exact .inl rfl
    · exact .inr ⟨p, rfl⟩
  unfold step nextAction at h
  rcases hsch : s.schedule with _ | ⟨e, rest⟩
  · simp only [hsch] at h
    rcases hpend with hp | ⟨p, hp⟩
    · rw [codecTurn_none hp] at h
      cases h
      exact .inl ⟨s.schedule, s.responses, s.draws, rfl, .inl hp⟩
    · rw [codecTurn_some hp] at h
      exact .inr (.inr (.inr (.inr ⟨p, s.schedule, hp, .inl rfl, h⟩)))
  · rcases e with a | n | _ | _
    · cases a with
      | read addr n =>
        simp only [hsch, hostAccess] at h
        split at h
        · rename_i heq
          split at heq
          · cases heq
            cases h
            rename_i off _
            obtain ⟨rs, d, e⟩ := read off n { s with schedule := rest }
            exact .inl ⟨rest, rs, d, e, .inr (.inl ⟨_, _, rfl⟩)⟩
          · cases heq
        · rename_i heq
          split at heq <;> cases heq
        · cases h
      | write addr n v =>
        simp only [hsch, hostAccess] at h
        cases hw : windowOffset s.cfg addr with
        | none => simp only [hw] at h; cases h
        | some off =>
          simp only [hw, hostWrite] at h
          by_cases hl : accessLegal off n = true
          · rw [if_pos hl] at h
            by_cases hc : off = cmdOffset ∧ busy { s with schedule := rest } = false
            · rw [if_pos hc] at h
              simp only at h
              obtain ⟨hc1, hc2⟩ := hc
              have hpn : s.pend = none := by simpa [busy] using hc2
              obtain ⟨ha, -⟩ := windowOffset_eq_some hw
              rw [accessLegal_iff] at hl
              have hn : n = 4 := by unfold cmdOffset at hc1; omega
              subst hn
              refine .inr (.inr (.inr (.inl ⟨v, rest, ?_, hpn, h⟩)))
              rw [ha, hc1]; rfl
            · rw [if_neg hc] at h
              simp only at h
              cases h
              exact .inr (.inl ⟨addr, n, v, rest, off, rfl, hw, hl, rfl⟩)
          · rw [if_neg hl] at h
            simp only at h
            cases h
            exact .inl ⟨rest, _, s.draws, rfl, .inr (.inl ⟨_, _, rfl⟩)⟩
    · simp only [hsch] at h
      rcases hpend with hp | ⟨p, hp⟩
      · rw [pollTurn_idle hp] at h
        cases h
        obtain ⟨rs, d, e⟩ := read statusOffset 4 { s with schedule := rest }
        exact .inl ⟨rest, rs, d, e, .inl hp⟩
      · cases n with
        | zero =>
          rw [pollTurn_zero hp, codecTurn_some hp] at h
          exact .inr (.inr (.inr (.inr ⟨p, s.schedule, hp, .inr (.inr ⟨rest, rfl⟩), h⟩)))
        | succ n =>
          rw [pollTurn_succ hp] at h
          cases h
          obtain ⟨rs, d, e⟩ := read statusOffset 4 { s with schedule := .poll n :: rest }
          exact .inl ⟨.poll n :: rest, rs, d, e, .inr (.inr ⟨n, rest, rfl⟩)⟩
    · simp only [hsch] at h
      rcases hpend with hp | ⟨p, hp⟩
      · rw [codecTurn_none (s := { s with schedule := rest }) hp] at h
        cases h
        exact .inl ⟨rest, s.responses, s.draws, rfl, .inl hp⟩
      · rw [codecTurn_some (s := { s with schedule := rest }) hp] at h
        exact .inr (.inr (.inr (.inr ⟨p, rest, hp, .inr (.inl ⟨rest, rfl⟩), h⟩)))
    · simp only [hsch] at h
      cases h
      exact .inr (.inr (.inl ⟨rest, rfl, rfl⟩))

/-! ### What reads and writes depend on -/

theorem busy_eq_false {s : State} : busy s = false ↔ s.pend = none := by unfold busy; cases s.pend <;> simp

theorem busy_eq_true {s : State} : busy s = true ↔ ∃ p, s.pend = some p := by unfold busy; cases s.pend <;> simp

theorem bufferBytes_host (s : State) (sch : List Event) (rs : List Response) (off n : Nat) :
    bufferBytes { s with schedule := sch, responses := rs } off n = bufferBytes s off n := by
  induction n generalizing off with
  | zero => rfl
  | succ n ih => unfold bufferBytes; rw [ih]; rfl

/-- What a read returns does not depend on what the host will do or has read. -/
theorem memRead_host (s : State) (sch : List Event) (rs : List Response) (off n : Nat) :
    memRead { s with schedule := sch, responses := rs } off n = memRead s off n := by
  unfold memRead; rw [bufferBytes_host]; rfl

/-- A step that is a legal host read (R38, R44). -/
theorem step_read_legal {s : State} {off size : Nat} {rest : List Event} (hoff : off < 0x80000)
    (hl : accessLegal off size = true) (h : s.schedule = .access (.read (s.cfg.base + off) size) :: rest) :
    step s = .next { s with
      schedule := rest, responses := .data (memRead s off size) :: s.responses,
      draws := (afterRead { s with schedule := rest } off).draws } := by
  rw [step_read hoff h, hostRead_eq, if_pos hl, memRead_host s rest s.responses]

/-- A write while BUSY is ignored (R99). -/
theorem memWrite_busy {s : State} (h : busy s = true) (off n : Nat) (v : Word) : memWrite s off n v = s := if_pos h

theorem memWrite_register {s : State} (h : busy s = false) {off : Nat} (ho : off < 0x10000) (n : Nat) (v : Word) :
    memWrite s off n v = regWrite s off v := by
  unfold memWrite; rw [if_neg (by simp [h])]; exact if_pos ho

theorem memWrite_buffer {s : State} (h : busy s = false) {off : Nat} (ho : 0x10000 ≤ off) (n : Nat) (v : Word) :
    memWrite s off n v = bufferWrite s off v n := by
  unfold memWrite; rw [if_neg (by simp [h]), if_neg (show ¬ off < ibufOffset by unfold ibufOffset; omega)]

/-- CTRL reads back what was written, without the reserved bits (R16). -/
theorem ctrlWord_ctrlOfWord (v : Word) : ctrlWord (ctrlOfWord v) = (v &&& 0x00000003#32) := by
  apply BitVec.eq_of_toNat_eq
  rw [and_opMask_toNat]
  have h0 : v.getLsbD 0 = decide (v.toNat % 2 = 1) := by
    rw [BitVec.getLsbD, Nat.testBit_zero]
  have h1 : v.getLsbD 1 = decide (v.toNat / 2 % 2 = 1) := by
    rw [BitVec.getLsbD, Nat.testBit_succ, Nat.testBit_zero]
  unfold ctrlWord ctrlOfWord
  simp only [h0, h1]
  by_cases a : v.toNat % 2 = 1 <;> by_cases b : v.toNat / 2 % 2 = 1 <;>
    simp [a, b, variantOfBit, variantCode, bitOf] <;> omega

/-- One step of a run. -/
theorem run_next (M : Host.Core) (k : Nat) (s t : M.State) (h : M.step s = .next t) : M.run (k + 1) s = M.run k t := by
  simp only [Host.Core.run, h]

end Sys2Proof.Machine
end

