-- ==== Sys2Proof/Laws/Invariant.lean ====
section
/-! SUPPORT. The invariant under each shared operation. -/

namespace Sys2Proof.Machine

theorem SameBlock.refl (s : State) : SameBlock s s := ⟨rfl, rfl, rfl, rfl, rfl, rfl, rfl, rfl, rfl⟩

theorem SameBlock.host (s : State) (sch : List Event) (rs : List Response) (d : Nat) :
    SameBlock s { s with schedule := sch, responses := rs, draws := d } := ⟨rfl, rfl, rfl, rfl, rfl, rfl, rfl, rfl, rfl⟩

theorem SameBlock.busy {s t : State} (h : SameBlock s t) : busy t = busy s := by
  unfold Machine.busy; rw [h.pend]

theorem SameBlock.statusWord {s t : State} (h : SameBlock s t) : statusWord t = statusWord s := by
  unfold Machine.statusWord; rw [h.busy, h.status]

/-- The legal parameters, as inequalities (R8). -/
theorem Config.wellFormed_iff (c : Config) :
    c.wellFormed = true ↔ c.base % 0x80000 = 0 ∧ (1 ≤ c.ibufSize ∧ c.ibufSize ≤ 65536) ∧
      (1 ≤ c.obufSize ∧ c.obufSize ≤ 262144) ∧ 6 * ((c.ibufSize + 2) / 3) ≤ c.obufSize := by
  simp only [Config.wellFormed, Config.baseOk, Config.ibufOk, Config.obufOk, Config.roomOk, Bool.and_eq_true, beq_iff_eq,
    decide_eq_true_eq, and_assoc]

/-- The invariant is about the block alone. -/
theorem Inv.of_sameBlock {s t : State} (hi : Inv s) (h : SameBlock s t) : Inv t where
  config := by rw [h.cfg]; exact hi.config
  ibuf_wf := by rw [h.ibuf]; exact hi.ibuf_wf
  obuf_wf := by rw [h.obuf]; exact hi.obuf_wf
  ibuf_bound := by rw [h.ibuf, h.cfg]; exact hi.ibuf_bound
  obuf_bound := by rw [h.obuf, h.cfg]; exact hi.obuf_bound
  status_reachable := by rw [h.statusWord]; exact hi.status_reachable
  busy_outLen := by rw [h.busy, h.outLen]; exact hi.busy_outLen
  err_outLen := by rw [h.status, h.outLen]; exact hi.err_outLen
  outLen_bound := by rw [h.outLen, h.cfg]; exact hi.outLen_bound
  out_held := by rw [h.outLen, h.obuf]; exact hi.out_held
  latched := by
    intro p hp; rw [h.pend] at hp
    have := hi.latched p hp
    unfold latch at this ⊢
    rw [h.ctrl, h.lineLen, h.inLen]; exact this
  pend_inLen := by rw [h.pend, h.cfg]; exact hi.pend_inLen

/-- In reachable states the flags are clear while BUSY (R20). -/
theorem Inv.busy_status {s : State} (hi : Inv s) {p : Pend} (hp : s.pend = some p) : s.status = statusClear := by
  have hb : Machine.busy s = true := by simp [Machine.busy, hp]
  rcases (statusReachable_iff s).1 hi.status_reachable with ⟨-, h⟩ | ⟨h, -⟩
  · exact h
  · rw [hb] at h; cases h

/-- An error entry keeps the invariant. -/
theorem Inv.completeError {s : State} (hi : Inv s) {e : ErrCode} (he : e ≠ .noError) : Inv (completeError e s) where
  config := hi.config
  ibuf_wf := hi.ibuf_wf
  obuf_wf := hi.obuf_wf
  ibuf_bound := hi.ibuf_bound
  obuf_bound := hi.obuf_bound
  status_reachable := (statusReachable_iff _).2 (.inr ⟨rfl, .inr (.inr ⟨e, he, rfl⟩)⟩)
  busy_outLen := fun _ => rfl
  err_outLen := fun _ => rfl
  outLen_bound := Nat.zero_le _
  out_held := fun j hj => absurd hj (Nat.not_lt_zero j)
  latched := fun _ hp => nomatch hp
  pend_inLen := fun _ hp => nomatch hp

/-- The clearing at an issue keeps the invariant. -/
theorem Inv.clearResult {s : State} (hi : Inv s) : Inv (clearResult s) where
  config := hi.config
  ibuf_wf := hi.ibuf_wf
  obuf_wf := hi.obuf_wf
  ibuf_bound := hi.ibuf_bound
  obuf_bound := hi.obuf_bound
  status_reachable := by
    rw [statusReachable_iff]
    cases hb : Machine.busy (Machine.clearResult s)
    · exact .inr ⟨rfl, .inl rfl⟩
    · exact .inl ⟨rfl, rfl⟩
  busy_outLen := fun _ => rfl
  err_outLen := fun _ => rfl
  outLen_bound := Nat.zero_le _
  out_held := fun j hj => absurd hj (Nat.not_lt_zero j)
  latched := hi.latched
  pend_inLen := hi.pend_inLen

/-- Latching the operands keeps the invariant. -/
theorem Inv.latch {s : State} (hi : Inv s) (op : Op) (h : s.inLen.toNat ≤ s.cfg.ibufSize) :
    Inv { Machine.clearResult s with pend := some (Machine.latch op s) } where
  config := hi.config
  ibuf_wf := hi.ibuf_wf
  obuf_wf := hi.obuf_wf
  ibuf_bound := hi.ibuf_bound
  obuf_bound := hi.obuf_bound
  status_reachable := (statusReachable_iff _).2 (.inl ⟨rfl, rfl⟩)
  busy_outLen := fun _ => rfl
  err_outLen := fun _ => rfl
  outLen_bound := Nat.zero_le _
  out_held := fun j hj => absurd hj (Nat.not_lt_zero j)
  latched := fun p hp => by cases hp; rfl
  pend_inLen := fun p hp => by cases hp; exact h

/-- A completion whose result fits keeps the invariant. -/
theorem Inv.completeOk {s : State} (hi : Inv s) {out : List Byte} (h : out.length ≤ outLenMax s.cfg) :
    Inv (completeOk out s) := by
  obtain ⟨-, ⟨-, hib⟩, -, hroom⟩ := (Config.wellFormed_iff s.cfg).1 hi.config
  unfold outLenMax at h
  have hlen : (Machine.completeOk out s).outLen.toNat = out.length := by
    rw [completeOk_outLen, BitVec.toNat_ofNat]; omega
  exact {
    config := hi.config
    ibuf_wf := hi.ibuf_wf
    obuf_wf := memStoreList_wf hi.obuf_wf 0 out
    ibuf_bound := hi.ibuf_bound
    obuf_bound := fun c hc => by
      rcases mem_memStoreList hc with hc | hc
      · exact hi.obuf_bound c hc
      · simp only [completeOk_cfg]; omega
    status_reachable := (statusReachable_iff _).2 (.inr ⟨rfl, .inr (.inl rfl)⟩)
    busy_outLen := fun hb => nomatch hb
    err_outLen := fun he => nomatch he
    outLen_bound := by rw [hlen]; exact h
    out_held := fun j hj => by
      rw [hlen] at hj
      rw [completeOk_obuf, memLookup_memStoreList, if_pos (by omega)]
      simp [hj]
    latched := fun _ hp => nomatch hp
    pend_inLen := fun _ hp => nomatch hp }

/-- The reset event establishes the invariant. -/
theorem Inv.resetEvent {s : State} (h : s.cfg.wellFormed = true) : Inv (resetEvent s) where
  config := h
  ibuf_wf := List.Pairwise.nil
  obuf_wf := List.Pairwise.nil
  ibuf_bound := fun _ hc => nomatch hc
  obuf_bound := fun _ hc => nomatch hc
  status_reachable := (statusReachable_iff _).2 (.inr ⟨rfl, .inl rfl⟩)
  busy_outLen := fun hb => nomatch hb
  err_outLen := fun he => nomatch he
  outLen_bound := Nat.zero_le _
  out_held := fun j hj => absurd hj (Nat.not_lt_zero j)
  latched := fun _ hp => nomatch hp
  pend_inLen := fun _ hp => nomatch hp

/-- A host write keeps the invariant. -/
theorem Inv.memWrite {s : State} (hi : Inv s) (off n : Nat) (v : Word) : Inv (memWrite s off n v) := by
  have idlePend : Machine.busy s = false → s.pend = none := fun h => by simpa [Machine.busy] using h
  have regs : ∀ (c : Ctrl) (l i : Word), Machine.busy s = false → Inv { s with ctrl := c, lineLen := l, inLen := i } :=
    fun c l i hb => { hi with
      latched := fun p hp => by rw [idlePend hb] at hp; cases hp }
  rcases memWrite_cases s off n v with h | ⟨hb, -, h⟩ | ⟨hb, -, h⟩ | ⟨hb, -, h⟩ | ⟨hb, -, h⟩
  · rw [h]; exact hi
  · rw [h]; exact regs _ s.lineLen s.inLen hb
  · rw [h]; exact regs s.ctrl _ s.inLen hb
  · rw [h]; exact regs s.ctrl s.lineLen _ hb
  · obtain ⟨hw, hbd⟩ := bufferWrite_wf s off v n hi.ibuf_wf hi.ibuf_bound
    rw [h, bufferWrite_eq]
    exact { hi with ibuf_wf := hw, ibuf_bound := hbd }

/-- The result of a command whose input is at most IBUF_SIZE fits (R8). -/
theorem transformOf_fits {s : State} (hi : Inv s) {p : Pend} (hp : s.pend = some p) {d out : List Byte}
    (hd : inputOf p s = some d) (h : transformOf p.op p d = .ok out) :
    out.length ≤ outLenMax s.cfg ∧ outLenMax s.cfg ≤ s.cfg.obufSize ∧ outLenMax s.cfg < 2 ^ 32 := by
  obtain ⟨-, ⟨-, hib⟩, -, hroom⟩ := (Config.wellFormed_iff s.cfg).1 hi.config
  have h1 := transformOf_length h
  have h2 := (inputOf_eq_some.1 hd).1
  have h3 := hi.pend_inLen p hp
  unfold outLenMax
  omega

end Sys2Proof.Machine
end

