-- ==== Sys2Proof/Laws/PerInstr.lean ====
section
/-! SUPPORT. The family OpField: what holds of each command as syntax, one lemma per constructor. -/

namespace Sys2Proof.Laws.OpField

/-- A command is well formed; its word has zeros in the ignored bits 31:2 (R51); the word, and the word's bytes with any bytes
after them, decode to the command (R52). -/
def Statement (i : Instr) : Prop :=
  i.wellFormed = true ∧ (Sys2Proof.encode i).toNat < 4 ∧ decodeWord (Sys2Proof.encode i) = i ∧
    ∀ rest : List Byte, decodeBytes (encodeBytes i ++ rest) = .ok (i, rest)

theorem encode : Statement .encode :=
  ⟨rfl, by decide, by decide, fun rest => decodeBytes_lanesOf (Sys2Proof.encode .encode) rest⟩

theorem decode : Statement .decode :=
  ⟨rfl, by decide, by decide, fun rest => decodeBytes_lanesOf (Sys2Proof.encode .decode) rest⟩

theorem reservedOp0 : Statement .reservedOp0 :=
  ⟨rfl, by decide, by decide, fun rest => decodeBytes_lanesOf (Sys2Proof.encode .reservedOp0) rest⟩

theorem reservedOp3 : Statement .reservedOp3 :=
  ⟨rfl, by decide, by decide, fun rest => decodeBytes_lanesOf (Sys2Proof.encode .reservedOp3) rest⟩

end Sys2Proof.Laws.OpField
end

