-- ==== Sys2Proof/Tests/Slice0.lean ====
section
/-! SUPPORT. Tests. Expected values come from spec/: the worked examples and vectors T<n> of 95_test_vectors.md, the encodings of
30_encoding.md and the ranges of 00_scope.md. Below them, a named witness for the hypotheses of each statement. -/

namespace Sys2Proof.Machine.Test

/-! ## States for tests -/

/-- An IDLE state of the reference configuration with the given options and input written, IN_LEN its length. -/
def idleState (v : Variant) (pad : Bool) (ll : Word) (input : List Byte) (sch : List Event) : State :=
  { State.reset with
    ctrl := { variant := v, padding := pad }, lineLen := ll, inLen := BitVec.ofNat 32 input.length
    ibuf := memStoreList [] 0 input, schedule := sch }

/-- The same with a command pending. -/
def busyState (op : Op) (v : Variant) (pad : Bool) (ll : Word) (input : List Byte) (sch : List Event) : State :=
  { idleState v pad ll input sch with pend := some (latch op (idleState v pad ll input sch)) }

/-- Reset with a schedule. -/
def after (sch : List Event) : State := { State.reset with schedule := sch }

/-- The state an outcome answers. -/
def stateOf (o : Host.Outcome State Fault Refusal) : Option State :=
  match o with
  | .next s => some s
  | .fault _ => none
  | .refused _ => none

/-- STATUS and the bytes OUT_LEN counts. -/
def resultOf (o : Host.Outcome State Fault Refusal) : Option (Word × Option (List Byte)) :=
  (stateOf o).map fun s => (statusWord s, memTake s.obuf 0 s.outLen.toNat)

/-- The answers to the host, the newest first. -/
def answersOf (o : Host.Outcome State Fault Refusal) : Option (List Response) := (stateOf o).map State.responses

/-! ## Well-formedness: a term that each check refuses (00_scope.md R8) -/

theorem test_wf_reference : Config.reference.wellFormed = true := by decide

theorem test_wf_base_refused : Config.wellFormed { base := 0x1000, ibufSize := 96, obufSize := 192 } = false := by decide

theorem test_wf_ibuf_zero_refused : Config.ibufOk { base := 0, ibufSize := 0, obufSize := 192 } = false := by decide

theorem test_wf_ibuf_large_refused : Config.ibufOk { base := 0, ibufSize := 65537, obufSize := 192 } = false := by decide

theorem test_wf_obuf_zero_refused : Config.obufOk { base := 0, ibufSize := 96, obufSize := 0 } = false := by decide

theorem test_wf_obuf_large_refused : Config.obufOk { base := 0, ibufSize := 96, obufSize := 262145 } = false := by decide

theorem test_wf_room_refused : Config.wellFormed { base := 0, ibufSize := 97, obufSize := 192 } = false := by decide

/-! ## Decoding: words written out from 30_encoding.md R52 -/

theorem test_decode_encode : decodeWord 0b00000000000000000000000000000001#32 = .encode := by decide

theorem test_decode_decode : decodeWord 0b00000000000000000000000000000010#32 = .decode := by decide

theorem test_decode_reserved0 : decodeWord 0b00000000000000000000000000000000#32 = .reservedOp0 := by decide

theorem test_decode_reserved3 : decodeWord 0b00000000000000000000000000000011#32 = .reservedOp3 := by decide

/-- T128 and T132: bits 31:2 are ignored. -/
theorem test_decode_ignored_bits :
    decodeWord 0xFFFFFFFF#32 = .reservedOp3 ∧ decodeWord 0xFFFFFFFD#32 = .encode := by decide

/-- Bytes as the bus lays them out, low byte first. -/
theorem test_decode_bytes : decodeBytes [0x02#8, 0#8, 0#8, 0x80#8, 0x55#8] = .ok (.decode, [0x55#8]) := by rfl

theorem test_decode_truncated : decodeBytes [0x02#8, 0#8, 0#8] = .error (.truncated 3) := by rfl

theorem test_decode_table_words :
    decodeTableWord 32 0 = some .reservedOp0 ∧ decodeTableWord 32 1 = some .encode ∧
    decodeTableWord 32 2 = some .decode ∧ decodeTableWord 32 3 = some .reservedOp3 := by decide

/-! ## Commands, one step each -/

/-- T1: "Man" gives "TWFu". -/
theorem test_encode_man :
    resultOf (exec .encode (busyState .encode .standard true 0#32 [0x4D#8, 0x61#8, 0x6E#8] []))
      = some (0x02#32, some [0x54#8, 0x57#8, 0x46#8, 0x75#8]) := by decide

/-- T53: UrlSafe, no padding, line length 4, "Ma" gives "TWE" and a terminator. -/
theorem test_encode_wrapped_tail :
    resultOf (exec .encode (busyState .encode .urlSafe false 4#32 [0x4D#8, 0x61#8] []))
      = some (0x02#32, some [0x54#8, 0x57#8, 0x45#8, 0x0D#8, 0x0A#8]) := by decide

/-- T5: "TW\r\nFu" gives "Man". -/
theorem test_decode_wrapped :
    resultOf (exec .decode (busyState .decode .standard true 0#32 [0x54#8, 0x57#8, 0x0D#8, 0x0A#8, 0x46#8, 0x75#8] []))
      = some (0x02#32, some [0x4D#8, 0x61#8, 0x6E#8]) := by decide

/-- T64: three symbols under padding are a LengthError. -/
theorem test_decode_length_error :
    resultOf (exec .decode (busyState .decode .standard true 0#32 [0x54#8, 0x57#8, 0x46#8] []))
      = some (0x16#32, some []) := by decide

/-- T127. -/
theorem test_reserved0_command_error : resultOf (exec .reservedOp0 State.reset) = some (0x36#32, some []) := by decide

/-- T130: CommandError wins over ParamError. -/
theorem test_reserved3_before_param_error :
    resultOf (exec .reservedOp3 { State.reset with inLen := 97#32 }) = some (0x36#32, some []) := by decide

/-! ## Tables and helper functions -/

/-- T100 to T103. -/
theorem test_fwd :
    fwd .standard 0#6 = 0x41#8 ∧ fwd .standard 25#6 = 0x5A#8 ∧ fwd .standard 26#6 = 0x61#8 ∧ fwd .standard 51#6 = 0x7A#8 ∧
    fwd .standard 52#6 = 0x30#8 ∧ fwd .standard 61#6 = 0x39#8 ∧ fwd .standard 62#6 = 0x2B#8 ∧ fwd .urlSafe 62#6 = 0x2D#8 ∧
    fwd .standard 63#6 = 0x2F#8 ∧ fwd .urlSafe 63#6 = 0x5F#8 := by decide

/-- T104 to T109. -/
theorem test_rev_and_kept :
    rev .standard 0x2B#8 = some 62#6 ∧ rev .urlSafe 0x2B#8 = none ∧ rev .urlSafe 0x5F#8 = some 63#6 ∧
    rev .standard 0x5F#8 = none ∧ rev .standard 0x3D#8 = none ∧ isKept .urlSafe 0x3D#8 = true ∧
    isKept .standard 0x2D#8 = false ∧ isKept .urlSafe 0x2D#8 = true ∧ isKept .standard 0x0D#8 = false ∧
    isKept .standard 0xFF#8 = false := by decide

/-- T116 to T118, with "TWE=", "TQ==", "A===" and "TWF". -/
theorem test_pad_count_and_out_len :
    padCount true [0x54#8, 0x57#8, 0x45#8, 0x3D#8] = 1 ∧ padCount true [0x54#8, 0x51#8, 0x3D#8, 0x3D#8] = 2 ∧
    padCount true [0x41#8, 0x3D#8, 0x3D#8, 0x3D#8] = 2 ∧ padCount false [0x54#8, 0x51#8, 0x3D#8, 0x3D#8] = 0 ∧
    outLenOf true [0x54#8, 0x51#8, 0x3D#8, 0x3D#8] = 1 ∧ outLenOf false [0x54#8] = 0 ∧
    outLenOf false [0x54#8, 0x57#8, 0x46#8] = 2 := by decide

/-! ## The bus -/

/-- T121: the reserved bits of CTRL read 0. -/
theorem test_ctrl_reserved_bits : ctrlWord (ctrlOfWord 0xFFFFFFFF#32) = 0x03#32 := by decide

/-- T126: a 32-bit write puts the low byte at the lowest offset. -/
theorem test_ibuf_little_endian :
    (stateOf (step (after [wr32 Config.reference 0x10000 0x75465754#32]))).map State.ibuf
      = some [(0, 0x54#8), (1, 0x57#8), (2, 0x46#8), (3, 0x75#8)] := by decide

/-- T126: the reads of the same bytes. -/
theorem test_ibuf_read_lanes :
    memRead { State.reset with ibuf := [(0, 0x54#8), (1, 0x57#8), (2, 0x46#8), (3, 0x75#8)] } 0x10002 2 = 0x7546#32 := by
  decide

/-- T124: an 8-bit read of STATUS is a bus error, and so is a misaligned read of OBUF. -/
theorem test_bus_error :
    answersOf (step (after [rd8 Config.reference 0x00010])) = some [.busError] ∧
    answersOf (step (after [rd32 Config.reference 0x40002])) = some [.busError] := by decide

/-- T125: a write beyond IBUF_SIZE is ignored and a read there gives 0. -/
theorem test_beyond_ibuf :
    (stateOf (step (after [wr8 Config.reference 0x10060 0x55#32]))).map State.ibuf = some [] ∧
    answersOf (step (after [rd32 Config.reference 0x10060])) = some [.data 0#32] := by decide

/-- T132: the write of 0xFFFFFFFD issues ENCODE. -/
theorem test_cmd_write_issues :
    (stateOf (step (after [wr32 Config.reference 0x0000C 0xFFFFFFFD#32]))).map statusWord = some 0x01#32 := by decide

/-- T131: IN_LEN = IBUF_SIZE is accepted; the completion without written input is the model's fault. -/
theorem test_unwritten_input :
    (stateOf (exec .decode { State.reset with inLen := 96#32 })).map statusWord = some 0x01#32 ∧
    stateOf (exec .decode { State.reset with pend := some (latch .decode { State.reset with inLen := 96#32 }) }) = none := by
  decide

/-- The fetched word runs as the first command after reset. -/
theorem test_fetch_word_after_reset :
    (stateOf (step (State.reset.withFetchWord 32 3))).map statusWord = some 0x36#32 := by decide

/-! ## Witnesses: concrete states and operands that meet all hypotheses of a statement together -/

/-- IDLE states with at most IBUF_SIZE bytes of input satisfy the invariant. -/
theorem inv_idleState (v : Variant) (pad : Bool) (ll : Word) (input : List Byte) (sch : List Event)
    (h : input.length ≤ 96) : Inv (idleState v pad ll input sch) where
  config := test_wf_reference
  ibuf_wf := memStoreList_wf List.Pairwise.nil 0 input
  obuf_wf := List.Pairwise.nil
  ibuf_bound := fun c hc => by
    rcases mem_memStoreList hc with hc | hc
    · cases hc
    · show c.1 < 96; omega
  obuf_bound := fun _ hc => nomatch hc
  status_reachable := (statusReachable_iff _).2 (.inr ⟨rfl, .inl rfl⟩)
  busy_outLen := fun _ => rfl
  err_outLen := fun _ => rfl
  outLen_bound := Nat.zero_le _
  out_held := fun j hj => absurd hj (Nat.not_lt_zero j)
  latched := fun _ hp => nomatch hp
  pend_inLen := fun _ hp => nomatch hp

/-- And so do the states a legal issue from them gives. -/
theorem inv_busyState (op : Op) (v : Variant) (pad : Bool) (ll : Word) (input : List Byte) (sch : List Event)
    (h : input.length ≤ 96) : Inv (busyState op v pad ll input sch) := by
  refine Inv.latch (inv_idleState v pad ll input sch h) op ?_
  show (BitVec.ofNat 32 input.length).toNat ≤ 96
  rw [BitVec.toNat_ofNat]
  exact Nat.le_trans (Nat.mod_le _ _) h

/-- "Man", and its text "TWFu". -/
def man : List Byte := [0x4D#8, 0x61#8, 0x6E#8]
def twfu : List Byte := [0x54#8, 0x57#8, 0x46#8, 0x75#8]

/-- An ENCODE of "Man" and a DECODE of `text`, pending. -/
def encoding (sch : List Event) : State := busyState .encode .standard true 0#32 man sch
def decoding (text : List Byte) (sch : List Event) : State := busyState .decode .standard true 0#32 text sch

def encodingPend : Pend := { op := .encode, variant := .standard, padding := true, lineLen := 0#32, inLen := 3#32 }
def decodingPend (n : Word) : Pend := { op := .decode, variant := .standard, padding := true, lineLen := 0#32, inLen := n }

theorem holds_man (sch : List Event) : Holds (encoding sch).ibuf 0 man :=
  have h : Holds (memStoreList [] 0 man) 0 man := by unfold Holds; decide
  h

theorem holds_twfu (sch : List Event) : Holds (decoding twfu sch).ibuf 0 twfu :=
  have h : Holds (memStoreList [] 0 twfu) 0 twfu := by unfold Holds; decide
  h

theorem witness_DecodeOfEncodeIsTheCommand :
    (∀ i : Instr, i.wellFormed = true) ∧ ([0x01#8, 0#8, 0#8] : List Byte).length < 4 :=
  ⟨fun i => by cases i <;> rfl, by decide⟩

theorem witness_CommandWriteStepIsExec : ∃ (s : State) (w : Word) (i : Instr) (rest : List Event),
    s.schedule = .access (.write (s.cfg.base + 0x0000C) 4 w) :: rest ∧ s.pend = none ∧
    decodeBytes (lanesOf w) = .ok (i, []) :=
  ⟨after [wr32 Config.reference 0x0000C 1#32], 1#32, .encode, [], rfl, rfl, rfl⟩

theorem witness_CodecTurnStepIsExec :
    ((encoding []).pend = some encodingPend ∧ (encoding []).schedule = []) ∧
    ((encoding [.codec]).pend = some encodingPend ∧ (encoding [.codec]).schedule = [.codec]) ∧
    ((encoding [.poll 0]).pend = some encodingPend ∧ (encoding [.poll 0]).schedule = [.poll 0]) := by decide

theorem witness_FetchWordStepIsExec : decodeTableWord 32 1 = some .encode := by decide

/-- IN_LEN at its largest legal value. -/
theorem witness_EncodeDecodeIssueLatches : ∃ s : State, s.pend = none ∧ s.inLen.toNat = s.cfg.ibufSize :=
  ⟨{ State.reset with inLen := 96#32 }, by decide⟩

/-- The four OP values, and IN_LEN at IBUF_SIZE and one above. -/
theorem witness_CmdWriteWhileIdleIssues (w : Word) (n : Word) :
    ∃ s : State, s.schedule = [.access (.write (s.cfg.base + 0x0000C) 4 w)] ∧ s.pend = none ∧ s.inLen = n ∧
      s.cfg.ibufSize = 96 :=
  ⟨{ after [wr32 Config.reference 0x0000C w] with inLen := n }, rfl, rfl, rfl, rfl⟩

theorem witness_ParamErrorWhenInLenExceedsIbuf :
    (∃ s : State, s.pend = none ∧ s.cfg.ibufSize < s.inLen.toNat) ∧
    (∃ s : State, s.pend = none ∧ s.inLen.toNat = s.cfg.ibufSize) :=
  ⟨⟨{ State.reset with inLen := 97#32 }, by decide⟩, ⟨{ State.reset with inLen := 96#32 }, by decide⟩⟩

theorem witness_ReservedCommandsEndWithCommandError :
    State.reset.pend = none ∧ (0xFFFFFFFC#32).toNat % 4 = 0 ∧ (0xFFFFFFFF#32).toNat % 4 = 3 := by decide

theorem witness_EncodeCompletesWithItsText : ∃ (s : State) (p : Pend) (d : List Byte), Inv s ∧ s.pend = some p ∧
    p.op = .encode ∧ d.length = p.inLen.toNat ∧ Holds s.ibuf 0 d ∧ d ≠ [] :=
  ⟨encoding [], encodingPend, man, inv_busyState _ _ _ _ _ _ (by decide), by decide, rfl, rfl, holds_man [], by decide⟩

/-- With padding and a sanitized length of 4, and without padding. -/
theorem witness_DecodeCompletesWithItsBytes :
    (∃ (s : State) (p : Pend) (d : List Byte), Inv s ∧ s.pend = some p ∧ p.op = .decode ∧ d.length = p.inLen.toNat ∧
      Holds s.ibuf 0 d ∧ p.padding = true ∧ (sanitize p.variant d).length % 4 = 0 ∧ d ≠ []) ∧
    (∃ (s : State) (p : Pend) (d : List Byte), Inv s ∧ s.pend = some p ∧ p.op = .decode ∧ d.length = p.inLen.toNat ∧
      Holds s.ibuf 0 d ∧ p.padding = false ∧ (sanitize p.variant d).length = 3) :=
  ⟨⟨decoding twfu [], decodingPend 4#32, twfu, inv_busyState _ _ _ _ _ _ (by decide), by decide, rfl, rfl, holds_twfu [],
      by decide⟩,
   ⟨busyState .decode .standard false 0#32 [0x54#8, 0x57#8, 0x46#8] [], { decodingPend 3#32 with padding := false },
      [0x54#8, 0x57#8, 0x46#8], inv_busyState _ _ _ _ _ _ (by decide), by decide, rfl, rfl,
      by unfold Holds; decide, by decide⟩⟩

/-- A DECODE that raises LengthError, and one that does not. -/
theorem witness_LengthErrorExactly :
    (∃ (s : State) (p : Pend) (d : List Byte), s.pend = some p ∧ d.length = p.inLen.toNat ∧ Holds s.ibuf 0 d ∧
      p.op = .decode ∧ p.padding = true ∧ (sanitize p.variant d).length % 4 ≠ 0) ∧
    (∃ (s : State) (p : Pend) (d : List Byte), s.pend = some p ∧ d.length = p.inLen.toNat ∧ Holds s.ibuf 0 d ∧
      p.op = .decode ∧ p.padding = true ∧ (sanitize p.variant d).length % 4 = 0) :=
  ⟨⟨decoding [0x54#8, 0x57#8, 0x46#8] [], decodingPend 3#32, [0x54#8, 0x57#8, 0x46#8], by decide, rfl,
      by unfold Holds; decide, by decide⟩,
   ⟨decoding twfu [], decodingPend 4#32, twfu, by decide, rfl, holds_twfu [], by decide⟩⟩

/-- A pending command whose last byte is unwritten, and one whose input is written. -/
theorem witness_UnwrittenInputFaults :
    (∃ (s : State) (p : Pend), s.pend = some p ∧ ∃ i, i < p.inLen.toNat ∧ memLookup s.ibuf i = none) ∧
    (∃ (s : State) (p : Pend), s.pend = some p ∧ ∀ i, i < p.inLen.toNat → memLookup s.ibuf i ≠ none) :=
  ⟨⟨{ encoding [] with pend := some { encodingPend with inLen := 4#32 } }, _, rfl, 3, by decide⟩,
   ⟨encoding [], encodingPend, by decide⟩⟩

theorem witness_EmptyInputEncodesToNothing : ∃ (s : State) (p : Pend), s.pend = some p ∧ p.op = .encode ∧ p.inLen = 0#32 :=
  ⟨busyState .encode .urlSafe false 4#32 [] [], _, rfl, rfl, rfl⟩

/-- "\r\n" (T84). -/
theorem witness_StrippedTextDecodesToNothing : ∃ (s : State) (p : Pend) (d : List Byte), s.pend = some p ∧ p.op = .decode ∧
    d.length = p.inLen.toNat ∧ Holds s.ibuf 0 d ∧ (∀ c ∈ d, isKept p.variant c = false) ∧ d ≠ [] :=
  ⟨decoding crlf [], decodingPend 2#32, crlf, by decide, rfl, rfl, by unfold Holds; decide, by decide⟩

/-- An issue, and a completion that stores. -/
theorem witness_CommandsLeaveTheRestUnchanged :
    (∃ (s t : State), Inv s ∧ exec .encode s = .next t ∧ s.pend = none) ∧
    (∃ (s t : State), Inv s ∧ exec .encode s = .next t ∧ t.outLen = 4#32) :=
  ⟨⟨idleState .standard true 0#32 man [], _, inv_idleState _ _ _ _ _ (by decide), rfl, rfl⟩,
   ⟨encoding [], _, inv_busyState _ _ _ _ _ _ (by decide), rfl, rfl⟩⟩

theorem witness_CommandsStopOnlyOnUnwrittenInput : ∃ (s : State) (r : Fault), exec .encode s = .fault r :=
  ⟨{ encoding [] with ibuf := [] }, _, rfl⟩

/-- Two states that differ in LINE_LEN, OBUF and the host's side. -/
theorem witness_ResultDependsOnLatchedOperandsOnly : ∃ (s s' t : State) (p : Pend), Inv s ∧ s.pend = some p ∧
    s'.pend = some p ∧ (∀ a, a < p.inLen.toNat → memLookup s'.ibuf a = memLookup s.ibuf a) ∧
    exec (opInstr p.op) s = .next t ∧ s'.lineLen ≠ s.lineLen ∧ s'.obuf ≠ s.obuf :=
  ⟨encoding [], { encoding [] with lineLen := 7#32, obuf := [(9, 0x55#8)] }, _, encodingPend,
    inv_busyState _ _ _ _ _ _ (by decide), by decide, by decide, fun _ _ => rfl, rfl, by decide, by decide⟩

theorem witness_DecodeIgnoresLineLen : (decodingPend 4#32).op = .decode := rfl

/-- An error at issue, and one at completion. -/
theorem witness_ErrorEntryIsPrecise :
    (∃ s t : State, Inv s ∧ exec .reservedOp3 s = .next t ∧ t.status.err = true) ∧
    (∃ s t : State, Inv s ∧ exec .decode s = .next t ∧ t.status.err = true) :=
  ⟨⟨idleState .standard true 0#32 man [], _, inv_idleState _ _ _ _ _ (by decide), rfl, rfl⟩,
   ⟨decoding [0x54#8] [], _, inv_busyState _ _ _ _ _ _ (by decide), rfl, rfl⟩⟩

/-- OP 0 to 3, with IN_LEN at IBUF_SIZE and one above. -/
theorem witness_ErrorPriority :
    (∃ s : State, s.pend = none ∧ s.cfg.ibufSize < s.inLen.toNat) ∧
    (∃ s : State, s.pend = none ∧ s.inLen.toNat = s.cfg.ibufSize) ∧
    (0#32).toNat % 4 = 0 ∧ (1#32).toNat % 4 = 1 ∧ (2#32).toNat % 4 = 2 ∧ (3#32).toNat % 4 = 3 :=
  ⟨⟨{ State.reset with inLen := 97#32 }, by decide⟩, ⟨{ State.reset with inLen := 96#32 }, by decide⟩, by decide⟩

theorem witness_ErrorPriority_lengthError : ∃ s t : State, exec .decode s = .next t ∧ t.status.errcode = .lengthError ∧
    s.status.errcode ≠ .lengthError :=
  ⟨decoding [0x54#8] [], _, rfl, rfl, by decide⟩

theorem witness_ResultPersistsUntilIssueOrReset : ∃ (s t : State) (e : Event) (rest : List Event), s.pend = none ∧
    s.schedule = e :: rest ∧ e ≠ .reset ∧ (∀ w, e ≠ .access (.write (s.cfg.base + 0x0000C) 4 w)) ∧ step s = .next t :=
  ⟨after [wr32 Config.reference 0x00004 76#32], _, _, [], rfl, rfl, by decide,
    (fun w h => nomatch (show (4 : Nat) = 12 by injection h with h; injection h)), rfl⟩

/-- Each move: an issue, a completion, an access while BUSY, a reset. -/
theorem witness_SequencerMoves :
    (∃ s t : State, step s = .next t ∧ busy s = false ∧ busy t = true) ∧
    (∃ s t : State, step s = .next t ∧ busy s = true ∧ busy t = false) ∧
    (∃ s t : State, step s = .next t ∧ busy s = true ∧ ∃ a rest, s.schedule = .access a :: rest) ∧
    (∃ s t : State, step s = .next t ∧ ∃ rest, s.schedule = .reset :: rest) :=
  ⟨⟨after [wr32 Config.reference 0x0000C 1#32], _, rfl, rfl, rfl⟩, ⟨encoding [], _, rfl, rfl, rfl⟩,
   ⟨encoding [wr32 Config.reference 0x0000C 1#32], _, rfl, rfl, _, _, rfl⟩, ⟨encoding [.reset], _, rfl, _, rfl⟩⟩

theorem witness_PendingCommandIsFrozen : ∃ s t : State, busy s = true ∧ step s = .next t ∧ busy t = true :=
  ⟨encoding [wr32 Config.reference 0x00008 0#32], _, rfl, rfl, rfl⟩

/-- A POLL that reads twice while BUSY. -/
theorem witness_PollEndsWithBusyClear : ∃ (s : State) (rest : List Event), s.schedule = .poll 2 :: rest ∧ busy s = true ∧
    ∀ p, s.pend = some p → ∀ a, a < p.inLen.toNat → (memLookup s.ibuf a).isSome = true := by
  refine ⟨encoding [.poll 2], [], rfl, rfl, fun p hp => ?_⟩
  cases hp
  decide

theorem witness_ResetEventRestoresSpecValues : ∃ s : State, s.schedule = [.reset] ∧ busy s = true :=
  ⟨encoding [.reset], rfl, rfl⟩

theorem witness_StepKeepsInv : ∃ s t : State, Inv s ∧ step s = .next t ∧ t.outLen = 4#32 :=
  ⟨encoding [], _, inv_busyState _ _ _ _ _ _ (by decide), rfl, rfl⟩

theorem witness_StepKeepsParameters : ∃ s t : State, step s = .next t := ⟨encoding [], _, rfl⟩

/-- A byte of neither alphabet, and symbols that are equal. -/
theorem witness_AlphabetStatements :
    (∀ i : Sym, fwd .standard i ≠ 0x2D#8) ∧ fwd .standard 5#6 = fwd .standard 5#6 := by decide

/-- Texts of exactly one line, and of one byte less. -/
theorem witness_LineWrappingByLines :
    (0 < 4 ∧ 3 * ((4 + 3) / 4) = man.length) ∧
    (0 < 5 ∧ (man ++ man.take 2).length + 1 = 3 * ((5 + 3) / 4)) := by decide

theorem witness_EncodedBytesAreSymbolsPadsAndTerminators :
    0x0D#8 ∈ encodeText .standard true 4 man ∧ 0x3D#8 ∈ encodeText .standard true 0 [0x4D#8] := by decide

theorem witness_VariantDivergence :
    (encodeText .standard true 0 [0xFB#8, 0xFF#8, 0xBF#8])[0]? = some 0x2B#8 ∧
    (encodeText .urlSafe true 0 [0xFB#8, 0xFF#8, 0xBF#8])[0]? = some 0x2D#8 := by decide

theorem witness_DecodeSeesSanitizedTextOnly : sanitize .standard (0x2A#8 :: twfu) = sanitize .standard twfu := by decide

theorem witness_DecodedLengthIsOutLen : decodeText .standard true twfu = .ok man := by decide

/-- Every number of missing positions: three, two, one, none. -/
theorem witness_MissingPositionsCannotBeObserved :
    (((twfu.take 1).length + (twfu.take 3).length) % 4 = 0 ∧ (twfu.take 3).length < 4) ∧
    (((twfu.take 2).length + (twfu.take 2).length) % 4 = 0 ∧ (twfu.take 2).length < 4) ∧
    (((twfu.take 3).length + (twfu.take 1).length) % 4 = 0 ∧ (twfu.take 1).length < 4) ∧
    ((twfu.length + ([] : List Byte).length) % 4 = 0 ∧ ([] : List Byte).length < 4) := by decide

/-- Illegal and legal accesses at the ends of the register and the buffer space. -/
theorem witness_IllegalAccessIsBusErrorOnly :
    (∃ s : State, s.schedule = [.access (.read (s.cfg.base + 0x0FFFE) 4)]) ∧
    (∃ s : State, s.schedule = [.access (.write (s.cfg.base + 0x0FFFC) 2 0#32)]) ∧
    (∃ s : State, s.schedule = [.access (.read (s.cfg.base + 0x10000) 3)]) ∧
    (∃ s : State, s.schedule = [.access (.write (s.cfg.base + 0x7FFFF) 2 0#32)]) ∧
    (∃ s : State, s.schedule = [.access (.read (s.cfg.base + 0x0FFFC) 4)]) ∧
    (∃ s : State, s.schedule = [.access (.write (s.cfg.base + 0x7FFFF) 1 0#32)]) :=
  ⟨⟨after [rd32 Config.reference 0x0FFFE], rfl⟩, ⟨after [wr16 Config.reference 0x0FFFC 0#32], rfl⟩,
   ⟨after [.access (.read 0x10000 3)], rfl⟩, ⟨after [wr16 Config.reference 0x7FFFF 0#32], rfl⟩,
   ⟨after [rd32 Config.reference 0x0FFFC], rfl⟩, ⟨after [wr8 Config.reference 0x7FFFF 0#32], rfl⟩⟩

/-- Just below and just above the window of an instance at 0x80000. -/
theorem witness_AccessOutsideWindowRefused :
    (∃ s : State, 0x7FFFF < s.cfg.base ∧ s.schedule = [.access (.read 0x7FFFF 1)]) ∧
    (∃ s : State, s.cfg.base + 0x80000 ≤ 0x100000 ∧ s.schedule = [.access (.write 0x100000 4 0#32)]) :=
  ⟨⟨{ after [.access (.read 0x7FFFF 1)] with cfg := { Config.reference with base := 0x80000 } }, by decide, rfl⟩,
   ⟨{ after [.access (.write 0x100000 4 0#32)] with cfg := { Config.reference with base := 0x80000 } }, by decide, rfl⟩⟩

/-- While BUSY, and at the ends of each range whose writes are always ignored. -/
theorem witness_IgnoredWritesChangeNothing :
    (∃ s : State, busy s = true ∧ s.schedule = [.access (.write (s.cfg.base + 0x00000) 4 0#32)]) ∧
    accessLegal 0x00000 4 = true ∧
    (∀ off ∈ [0x00010, 0x00014, 0x00018, 0x0FFFC, 0x20000, 0x7FFFC],
      accessLegal off 4 = true ∧ off < 0x80000 ∧ (after [wr32 Config.reference off 5#32]).schedule
        = [.access (.write ((after [wr32 Config.reference off 5#32]).cfg.base + off) 4 5#32)]) :=
  ⟨⟨encoding [wr32 Config.reference 0x00000 0#32], rfl, rfl⟩, by decide, by decide⟩

theorem witness_RegisterWritesStore :
    ∀ off ∈ [0x00000, 0x00004, 0x00008], (after [wr32 Config.reference off 7#32]).pend = none ∧
      (after [wr32 Config.reference off 7#32]).schedule
        = [.access (.write ((after [wr32 Config.reference off 7#32]).cfg.base + off) 4 7#32)] := by decide

theorem witness_RegisterReadsReturnValues :
    ∀ off ∈ [0x00000, 0x00004, 0x00008, 0x0000C, 0x00010, 0x00014, 0x00018, 0x0FFFC],
      off < 0x10000 ∧ off % 4 = 0 ∧ (after [rd32 Config.reference off]).schedule
        = [.access (.read ((after [rd32 Config.reference off]).cfg.base + off) 4)] := by decide

/-- The four reads while BUSY, the buffers' last bytes among them. -/
theorem witness_ReadsWhileBusy :
    (∀ sch, Inv (encoding sch) ∧ busy (encoding sch) = true ∧ (encoding sch).schedule = sch) ∧
    memLookup (encoding []).ibuf 2 = some 0x6E#8 ∧ 191 < (encoding []).cfg.obufSize ∧
    rd8 Config.reference 0x10002 = .access (.read ((encoding []).cfg.base + 0x10000 + 2) 1) ∧
    rd8 Config.reference 0x400BF = .access (.read ((encoding []).cfg.base + 0x40000 + 191) 1) :=
  ⟨fun sch => ⟨inv_busyState _ _ _ _ _ sch (by decide), rfl, rfl⟩, by decide⟩

/-- A written IBUF byte, an OBUF byte while IDLE, and bytes of each range that reads 0. -/
theorem witness_BufferReadsAreLittleEndian :
    (∀ off ∈ [0x10000, 0x1FFFC, 0x20000, 0x3FFFC, 0x40000, 0x7FFFC],
      0x10000 ≤ off ∧ off < 0x80000 ∧ off % 4 = 0 ∧ (after [rd32 Config.reference off]).schedule
        = [.access (.read ((after [rd32 Config.reference off]).cfg.base + off) 4)]) ∧
    memLookup (idleState .standard true 0#32 man []).ibuf 2 = some 0x6E#8 ∧
    (∃ s : State, busy s = false ∧ memLookup s.obuf 3 = some 0x75#8) :=
  ⟨by decide, by decide, ⟨{ State.reset with obuf := [(3, 0x75#8)] }, by decide⟩⟩

/-- The first and last word of IBUF, the first word beyond it, the last of the window, and a word that straddles the end of an IBUF
of 97 bytes. -/
theorem witness_IbufWritesStoreTheirLanes :
    (∀ off ∈ [0x10000, 0x1005C, 0x10060, 0x1FFFC],
      0x10000 ≤ off ∧ off < 0x20000 ∧ off % 4 = 0 ∧ (after [wr32 Config.reference off 7#32]).pend = none ∧
      (after [wr32 Config.reference off 7#32]).schedule
        = [.access (.write ((after [wr32 Config.reference off 7#32]).cfg.base + off) 4 7#32)]) ∧
    (∃ s : State, s.cfg.wellFormed = true ∧ s.cfg.ibufSize = 97 ∧ s.pend = none ∧
      s.schedule = [.access (.write (s.cfg.base + 0x10060) 4 7#32)]) :=
  ⟨by decide, ⟨{ after [wr32 Config.reference 0x10060 7#32] with cfg := { base := 0, ibufSize := 97, obufSize := 198 } },
    by decide⟩⟩

/-- While IDLE, and of IBUF while BUSY. -/
theorem witness_ReadsAreRepeatable :
    (∃ s t u : State, s.schedule = [.access (.read 0x10000 4), .access (.read 0x10000 4)] ∧ busy s = false ∧
      step s = .next t ∧ step t = .next u) ∧
    (∃ s t u : State, s.schedule = [.access (.read 0x10000 1), .access (.read 0x10000 1)] ∧ busy s = true ∧
      0x10000 < s.cfg.base + 0x40000 ∧ step s = .next t ∧ step t = .next u) :=
  ⟨⟨after [rd32 Config.reference 0x10000, rd32 Config.reference 0x10000], _, _, rfl, rfl, rfl, rfl⟩,
   ⟨encoding [rd8 Config.reference 0x10000, rd8 Config.reference 0x10000], _, _, rfl, rfl, by decide, rfl, rfl⟩⟩

theorem witness_IdleBlockHoldsItsState :
    (State.reset.pend = none ∧ State.reset.schedule = []) ∧
    ((after [.codec]).pend = none ∧ (after [.codec]).schedule = [.codec]) := by decide

end Sys2Proof.Machine.Test
end

namespace Sys2Proof.Machine

/-! ## O49: illegal accesses get BusError and nothing else, legal ones complete (R35 to R37) -/

/-- The illegal sizes and alignments of the two spaces (R35, R36). -/
theorem accessLegal_eq_false_iff (off size : Nat) :
    accessLegal off size = false ↔
      (off < 0x10000 ∧ (size ≠ 4 ∨ off % 4 ≠ 0)) ∨
      (0x10000 ≤ off ∧ ((size ≠ 1 ∧ size ≠ 2 ∧ size ≠ 4) ∨ off % size ≠ 0)) := by
  rw [← Bool.not_eq_true, accessLegal_iff]
  omega

/-! ### What a write and an issue leave of the schedule and the answers -/

@[simp] theorem memWrite_schedule (s : State) (off n : Nat) (v : Word) :
    (memWrite s off n v).schedule = s.schedule := by
  rcases memWrite_cases s off n v with h | ⟨-, -, h⟩ | ⟨-, -, h⟩ | ⟨-, -, h⟩ | ⟨-, -, h⟩ <;> rw [h]
  rw [bufferWrite_eq]

@[simp] theorem memWrite_responses (s : State) (off n : Nat) (v : Word) :
    (memWrite s off n v).responses = s.responses := by
  rcases memWrite_cases s off n v with h | ⟨-, -, h⟩ | ⟨-, -, h⟩ | ⟨-, -, h⟩ | ⟨-, -, h⟩ <;> rw [h]
  rw [bufferWrite_eq]

@[simp] theorem issue_schedule (op : Op) (s : State) : (issue op s).schedule = s.schedule := by
  unfold issue; split <;> rfl

@[simp] theorem issue_responses (op : Op) (s : State) : (issue op s).responses = s.responses := by
  unfold issue; split <;> rfl

theorem exec_reserved_idle {i : Instr} (hi : i = .reservedOp0 ∨ i = .reservedOp3) {s : State} (h : s.pend = none) :
    exec i s = .next (completeError .commandError (clearResult s)) := by
  rcases hi with rfl | rfl
  · simp [exec, execReservedOp0, reservedStep, h]
  · simp [exec, execReservedOp3, reservedStep, h]

/-- While IDLE every command answers a next state (R96, R102), and leaves the host's side as it was. -/
theorem exec_idle_next (i : Instr) {s : State} (h : s.pend = none) :
    ∃ t, exec i s = .next t ∧ t.schedule = s.schedule ∧ t.responses = s.responses := by
  cases i with
  | encode => exact ⟨_, exec_idle .encode s h, issue_schedule .encode s, issue_responses .encode s⟩
  | decode => exact ⟨_, exec_idle .decode s h, issue_schedule .decode s, issue_responses .decode s⟩
  | reservedOp0 => exact ⟨_, exec_reserved_idle (.inl rfl) h, rfl, rfl⟩
  | reservedOp3 => exact ⟨_, exec_reserved_idle (.inr rfl) h, rfl, rfl⟩

/-! ### A host access as a step -/

/-- An illegal read gets no data (R37). -/
theorem step_read_illegal {s : State} {off size : Nat} {rest : List Event} (hoff : off < 0x80000)
    (hl : accessLegal off size = false) (h : s.schedule = .access (.read (s.cfg.base + off) size) :: rest) :
    step s = .next { s with schedule := rest, responses := .busError :: s.responses } := by
  rw [step_read hoff h, hostRead_eq, if_neg (by simp [hl])]

/-- An illegal write changes nothing of the block (R37). -/
theorem step_write_illegal {s : State} {off size : Nat} {v : Word} {rest : List Event} (hoff : off < 0x80000)
    (hl : accessLegal off size = false) (h : s.schedule = .access (.write (s.cfg.base + off) size v) :: rest) :
    step s = .next { s with schedule := rest, responses := .busError :: s.responses } :=
  step_settled ((nextAction_write hoff h).trans (hostWrite_illegal hl))

/-- A legal write that is no issue stores or is ignored (R42, R99). -/
theorem step_write_store {s : State} {off size : Nat} {v : Word} {rest : List Event} (hoff : off < 0x80000)
    (hl : accessLegal off size = true) (hi : off ≠ 0x0000C ∨ busy s = true)
    (h : s.schedule = .access (.write (s.cfg.base + off) size v) :: rest) :
    step s = .next (nextDraw (respond .written (memWrite { s with schedule := rest } off size v))) :=
  step_settled ((nextAction_write hoff h).trans (hostWrite_store hl hi))

/-- A write of CMD while IDLE runs the command that the word decodes to (R96). -/
theorem step_write_issue {s : State} {v : Word} {rest : List Event} (hp : s.pend = none)
    (h : s.schedule = .access (.write (s.cfg.base + 0x0000C) 4 v) :: rest) :
    step s = exec (decodeWord v) (nextDraw (respond .written { s with schedule := rest })) :=
  step_command ((nextAction_write (by decide) h).trans (hostWrite_issue hp))

/-- A legal write completes normally, whether it stores, is ignored or issues a command. -/
theorem step_write_legal {s : State} {off size : Nat} {v : Word} {rest : List Event} (hoff : off < 0x80000)
    (hl : accessLegal off size = true) (h : s.schedule = .access (.write (s.cfg.base + off) size v) :: rest) :
    ∃ t, step s = .next t ∧ t.schedule = rest ∧ t.responses = .written :: s.responses := by
  by_cases hi : off ≠ 0x0000C ∨ busy s = true
  · exact ⟨_, step_write_store hoff hl hi h, by simp, by simp⟩
  · obtain ⟨hcmd, hidle⟩ := not_or.1 hi
    obtain rfl : off = 0x0000C := not_not.1 hcmd
    obtain rfl : size = 4 := by rw [accessLegal_iff] at hl; omega
    have hp : s.pend = none := busy_eq_false.1 (by simpa using hidle)
    rw [step_write_issue hp h]
    exact exec_idle_next (decodeWord v) hp

/-- Settles O49: the two clauses are `accessLegal` false and true, and each holds of a read and of a write. -/
theorem illegalAccessIsBusErrorOnly : Obligations.IllegalAccessIsBusErrorOnly := by
  unfold Obligations.IllegalAccessIsBusErrorOnly
  intro s rest off size v a hoff ha hsch
  rw [← accessLegal_eq_false_iff, ← accessLegal_iff]
  rcases ha with rfl | rfl
  · exact ⟨fun hl => step_read_illegal hoff hl hsch,
      fun hl => ⟨_, _, step_read_legal hoff hl hsch, rfl, rfl, nofun⟩⟩
  · refine ⟨fun hl => step_write_illegal hoff hl hsch, fun hl => ?_⟩
    obtain ⟨t, hstep, hrest, hresp⟩ := step_write_legal hoff hl hsch
    exact ⟨t, .written, hstep, hrest, hresp, nofun⟩

end Sys2Proof.Machine

namespace Sys2Proof

/-! ## O2: OP names the command, and each row matches its word under the mask (R51, R52) -/

theorem decodeWord_encode (i : Instr) : decodeWord (encode i) = i := by cases i <;> decide

/-- The match word of a word's command is the word masked: the decoder reads OP and nothing else (R51). -/
theorem encode_decodeWord (w : Word) : encode (decodeWord w) = w &&& 0x00000003#32 := by
  obtain h | h | h | h : w.toNat % 4 = 0 ∨ w.toNat % 4 = 1 ∨ w.toNat % 4 = 2 ∨ w.toNat % 4 = 3 := by omega
  · rw [decodeWord_of_zero h]; exact ((and_opMask_eq_iff w 0 (by decide)).2 h).symm
  · rw [decodeWord_of_one h]; exact ((and_opMask_eq_iff w 1 (by decide)).2 h).symm
  · rw [decodeWord_of_two h]; exact ((and_opMask_eq_iff w 2 (by decide)).2 h).symm
  · rw [decodeWord_of_three h]; exact ((and_opMask_eq_iff w 3 (by decide)).2 h).symm

/-- A word decodes to a command exactly if the command's row of R52 matches it under the mask. -/
theorem decodeWord_eq_iff_masked (w : Word) (i : Instr) :
    decodeWord w = i ↔ w &&& 0x00000003#32 = encode i := by
  rw [← encode_decodeWord, (Function.LeftInverse.injective decodeWord_encode).eq_iff]

/-- A row of R52 matches a word exactly if the word's OP is the row's. -/
theorem op_eq_iff_masked (w : Word) (i : Instr) :
    w.toNat % 4 = (encode i).toNat ↔ w &&& 0x00000003#32 = encode i := by
  rw [← BitVec.toNat_inj, and_opMask_toNat]

theorem decodeWord_eq_iff_op (w : Word) (i : Instr) : decodeWord w = i ↔ w.toNat % 4 = (encode i).toNat :=
  (decodeWord_eq_iff_masked w i).trans (op_eq_iff_masked w i).symm

/-- Settles O2: each command's two clauses are the match of its row of R52. -/
theorem opValuesNameTheCommands : Obligations.OpValuesNameTheCommands := by
  unfold Obligations.OpValuesNameTheCommands
  intro w
  exact ⟨decodeWord_eq_iff_op w .reservedOp0, op_eq_iff_masked w .reservedOp0,
    decodeWord_eq_iff_op w .encode, op_eq_iff_masked w .encode,
    decodeWord_eq_iff_op w .decode, op_eq_iff_masked w .decode,
    decodeWord_eq_iff_op w .reservedOp3, op_eq_iff_masked w .reservedOp3⟩

end Sys2Proof

namespace Sys2Proof.Machine

/-! ## O32 to O34: the alphabet, its reverse lookup and the kept bytes (R59 to R64) -/

/-! ### Forward and reverse lookup -/

theorem fwd_injective (v : Variant) : Function.Injective (fwd v) := fun i j h =>
  Option.some_injective Sym ((rev_fwd v i).symm.trans ((congrArg (rev v) h).trans (rev_fwd v j)))

/-- Up to position 61 the lookup falls in the part of FWD that the variants share. -/
theorem fwd_eq_shared {i : Sym} (h : i.toNat ≤ 61) (v : Variant) :
    fwd v i = (upperSymbols ++ lowerSymbols ++ digitSymbols).getD i.toNat 0#8 :=
  List.getD_append _ _ _ _ (Nat.lt_succ_of_le h)

theorem fwd_standard_eq_urlSafe_iff (i : Sym) : fwd .standard i = fwd .urlSafe i ↔ i.toNat ≤ 61 := by
  constructor
  · intro h
    by_contra hi
    obtain rfl | rfl : i = 62#6 ∨ i = 63#6 := by bv_omega
    · exact absurd h (by decide)
    · exact absurd h (by decide)
  · intro h
    rw [fwd_eq_shared h, fwd_eq_shared h]

theorem rev_eq_some_iff {v : Variant} {c : Byte} {i : Sym} : rev v c = some i ↔ fwd v i = c :=
  ⟨fwd_of_rev v c i, fun h => h ▸ rev_fwd v i⟩

theorem rev_eq_none_iff {v : Variant} {c : Byte} : rev v c = none ↔ ∀ i : Sym, fwd v i ≠ c := by
  simp only [Option.eq_none_iff_forall_ne_some, ne_eq, rev_eq_some_iff]

/-- Settles O32: the shared part of FWD ends at position 61, and `rev` tells the symbols of a variant apart. -/
theorem variantsDifferOnlyInLastTwo : Obligations.VariantsDifferOnlyInLastTwo := by
  unfold Obligations.VariantsDifferOnlyInLastTwo
  exact ⟨fwd_standard_eq_urlSafe_iff, fun v _ _ h => fwd_injective v h⟩

/-- Settles O33: both directions of "`rev v c` is `some i` exactly if `fwd v i` is `c`". -/
theorem reverseLookupInvertsForward : Obligations.ReverseLookupInvertsForward := by
  unfold Obligations.ReverseLookupInvertsForward
  exact fun v => ⟨rev_fwd v, fun _ h => rev_eq_none_iff.2 h⟩

/-! ### The kept bytes as the list of FWD and the padding symbol -/

theorem fwdRom_eq_ofFn (v : Variant) : fwdRom v = List.ofFn (fun i : Fin 64 => fwd v (.ofFin i)) := by
  cases v <;> rfl

theorem mem_fwdRom_iff {v : Variant} {c : Byte} : c ∈ fwdRom v ↔ rev v c ≠ none := by
  rw [fwdRom_eq_ofFn, List.mem_ofFn, Ne, rev_eq_none_iff, not_forall_not]
  exact ⟨fun ⟨i, h⟩ => ⟨.ofFin i, h⟩, fun ⟨i, h⟩ => ⟨i.toFin, h⟩⟩

theorem padSymbol_cons_fwdRom_nodup (v : Variant) : (padSymbol :: fwdRom v).Nodup := by
  rw [List.nodup_cons, fwdRom_eq_ofFn, List.nodup_ofFn, List.mem_ofFn]
  exact ⟨fun ⟨i, h⟩ => fwd_ne_pad v _ h, (fwd_injective v).comp fun i j h => BitVec.ofFin.inj h⟩

theorem isKept_iff_rev (v : Variant) (c : Byte) : isKept v c = true ↔ rev v c ≠ none ∨ c = padSymbol := by
  simp only [isKept, Bool.or_eq_true, Option.isSome_iff_ne_none, beq_iff_eq]

theorem isKept_iff_mem (v : Variant) (c : Byte) : isKept v c = true ↔ c ∈ padSymbol :: fwdRom v := by
  rw [isKept_iff_rev, List.mem_cons, mem_fwdRom_iff, or_comm]

/-- The kept byte values are the 64 symbols and `=`, each once. -/
theorem kept_values_perm (v : Variant) :
    ((List.range 256).filter (fun n => isKept v (BitVec.ofNat 8 n))).Perm
      ((padSymbol :: fwdRom v).map BitVec.toNat) := by
  rw [List.perm_ext_iff_of_nodup (List.nodup_range.filter _)
    ((padSymbol_cons_fwdRom_nodup v).map BitVec.toNat_injective)]
  intro n
  rw [List.mem_filter, List.mem_range, isKept_iff_mem, List.mem_map]
  constructor
  · rintro ⟨hn, hmem⟩
    exact ⟨_, hmem, (BitVec.toNat_ofNat n 8).trans (Nat.mod_eq_of_lt hn)⟩
  · rintro ⟨c, hmem, rfl⟩
    exact ⟨c.isLt, by rwa [BitVec.ofNat_toNat, BitVec.setWidth_eq]⟩

theorem kept_values_length (v : Variant) :
    ((List.range 256).filter (fun n => isKept v (BitVec.ofNat 8 n))).length = 65 := by
  rw [(kept_values_perm v).length_eq, List.length_map, List.length_cons, fwdRom_eq_ofFn, List.length_ofFn]

/-! ### The kept bytes by ranges -/

/-- A run of consecutive byte values is the range between its ends. -/
theorem mem_map_range'_iff {a n : Nat} (h : a + n < 256) (c : Byte) :
    c ∈ (List.range' a (n + 1)).map (BitVec.ofNat 8) ↔ a ≤ c.toNat ∧ c.toNat ≤ a + n := by
  rw [List.mem_map]
  constructor
  · rintro ⟨k, hk, rfl⟩
    rw [List.mem_range'_1] at hk
    rw [BitVec.toNat_ofNat, Nat.mod_eq_of_lt (by omega)]
    omega
  · intro hc
    exact ⟨c.toNat, List.mem_range'_1.2 (by omega), by rw [BitVec.ofNat_toNat, BitVec.setWidth_eq]⟩

theorem mem_upperSymbols_iff (c : Byte) : c ∈ upperSymbols ↔ 0x41 ≤ c.toNat ∧ c.toNat ≤ 0x5A :=
  mem_map_range'_iff (a := 0x41) (n := 25) (by decide) c

theorem mem_lowerSymbols_iff (c : Byte) : c ∈ lowerSymbols ↔ 0x61 ≤ c.toNat ∧ c.toNat ≤ 0x7A :=
  mem_map_range'_iff (a := 0x61) (n := 25) (by decide) c

theorem mem_digitSymbols_iff (c : Byte) : c ∈ digitSymbols ↔ 0x30 ≤ c.toNat ∧ c.toNat ≤ 0x39 :=
  mem_map_range'_iff (a := 0x30) (n := 9) (by decide) c

theorem isKept_iff_ranges (v : Variant) (c : Byte) : isKept v c = true ↔
    (0x41 ≤ c.toNat ∧ c.toNat ≤ 0x5A) ∨ (0x61 ≤ c.toNat ∧ c.toNat ≤ 0x7A) ∨
      (0x30 ≤ c.toNat ∧ c.toNat ≤ 0x39) ∨ c ∈ lastSymbols v ∨ c = padSymbol := by
  rw [isKept_iff_mem, List.mem_cons, or_comm]
  simp only [fwdRom, List.mem_append, mem_upperSymbols_iff, mem_lowerSymbols_iff, mem_digitSymbols_iff, or_assoc]

/-- Settles O34: the kept bytes are the list of FWD and `=`, counted without repetition and read off by ranges. -/
theorem keptBytesAreAlphabetAndPad : Obligations.KeptBytesAreAlphabetAndPad := by
  unfold Obligations.KeptBytesAreAlphabetAndPad
  refine ⟨isKept_iff_rev, kept_values_length, fun c => ?_, fun c => ?_⟩
  · simpa [lastSymbols, or_assoc, padSymbol] using isKept_iff_ranges .standard c
  · simpa [lastSymbols, or_assoc, padSymbol] using isKept_iff_ranges .urlSafe c

end Sys2Proof.Machine

namespace Sys2Proof.Machine

/-! ## O35 and O36: the plan of a tail and the pad count (R68, R71) -/

/-! ### The symbols of a tail -/

/-- The slices of a group by the arithmetic of its three bytes (R76). -/
theorem slice_packBytes_eq_ofNat (b0 b1 b2 : Byte) :
    slice (packBytes b0 b1 b2) 0 = BitVec.ofNat 6 (b0.toNat / 4) ∧
    slice (packBytes b0 b1 b2) 1 = BitVec.ofNat 6 (b0.toNat % 4 * 16 + b1.toNat / 16) ∧
    slice (packBytes b0 b1 b2) 2 = BitVec.ofNat 6 (b1.toNat % 16 * 4 + b2.toNat / 64) ∧
    slice (packBytes b0 b1 b2) 3 = BitVec.ofNat 6 (b2.toNat % 64) := by
  obtain ⟨e0, e1, e2, e3⟩ := slice_packBytes b0 b1 b2
  rw [← e0, ← e1, ← e2, ← e3]
  simp only [BitVec.ofNat_toNat, BitVec.setWidth_eq, and_self]

/-- The text of a one-byte tail: slices 0 and 1 of the left-justified byte, and two padding symbols (R68). -/
theorem encodeTail_one_packBytes (v : Variant) (pad : Bool) (b0 : Byte) :
    encodeTail v pad 1 (packBytes b0 0#8 0#8) =
      [fwd v (BitVec.ofNat 6 (b0.toNat / 4)), fwd v (BitVec.ofNat 6 (b0.toNat % 4 * 16))] ++
        (if pad then [padSymbol, padSymbol] else []) := by
  obtain ⟨e0, e1, -, -⟩ := slice_packBytes_eq_ofNat b0 0#8 0#8
  rw [encodeTail_one, e0, e1]
  rfl

/-- The text of a two-byte tail: slices 0 to 2 of the left-justified bytes, and one padding symbol (R68). -/
theorem encodeTail_two_packBytes (v : Variant) (pad : Bool) (b0 b1 : Byte) :
    encodeTail v pad 2 (packBytes b0 b1 0#8) =
      [fwd v (BitVec.ofNat 6 (b0.toNat / 4)), fwd v (BitVec.ofNat 6 (b0.toNat % 4 * 16 + b1.toNat / 16)),
        fwd v (BitVec.ofNat 6 (b1.toNat % 16 * 4))] ++ (if pad then [padSymbol] else []) := by
  obtain ⟨e0, e1, e2, -⟩ := slice_packBytes_eq_ofNat b0 b1 0#8
  rw [encodeTail_two, e0, e1, e2]
  rfl

/-- Settles O35: the four rows are the table of R68, and each text is the general form of its tail at one padding option. -/
theorem tailPlanRows : Obligations.TailPlanRows := by
  unfold Obligations.TailPlanRows
  refine ⟨by decide, by decide, by decide, by decide, fun v b0 b1 => ⟨?_, ?_, ?_, ?_⟩⟩
  · exact encodeTail_one_packBytes v true b0
  · exact encodeTail_two_packBytes v true b0 b1
  · exact encodeTail_one_packBytes v false b0
  · exact encodeTail_two_packBytes v false b0 b1

/-! ### The pad count -/

theorem padCount_singleton (b : Byte) : padCount true [b] = if b = padSymbol then 1 else 0 := rfl

/-- Settles O36: by the length of the list, no symbol, one, or a list that ends in two; `"A==="` ends in two of its three `=`. -/
theorem padCountOfTrailingPads : Obligations.PadCountOfTrailingPads := by
  unfold Obligations.PadCountOfTrailingPads
  refine ⟨padCount_false, rfl, padCount_singleton, fun s a b => ?_, ?_, symbolValue_pad⟩
  · exact (padCount_append_two s a b).trans (if_congr and_comm rfl rfl)
  · exact padCount_append_two [0x41#8, 0x3D#8] 0x3D#8 0x3D#8

end Sys2Proof.Machine

namespace Sys2Proof.Machine

/-! ## O15: ENCODE of empty input (R81) -/

/-- No group, no tail and no terminator: the text of empty input is empty under every option (R81). -/
@[simp] theorem encodeText_nil (v : Variant) (pad : Bool) (ll : Nat) : encodeText v pad ll [] = [] := rfl

/-- A command whose latched length is 0 reads no byte of IBUF, whatever stands there. -/
theorem inputOf_of_inLen_zero {p : Pend} (h : p.inLen = 0#32) (s : State) : inputOf p s = some [] := by
  rw [inputOf, h]
  rfl

/-- The completion of a pending ENCODE whose input holds a value stores the text of that input (R75, R98). -/
theorem exec_encode_pending_input {s : State} {p : Pend} {d : List Byte} (h : s.pend = some p) (hop : p.op = .encode)
    (hd : inputOf p s = some d) :
    exec .encode s = .next (completeOk (encodeText p.variant p.padding p.lineLen.toNat d) s) := by
  have hexec := exec_pending_input s p d h hd
  rwa [hop] at hexec

/-- Settles O15: the completion stores the text of the empty input, which is empty, so OBUF keeps every byte and OUT_LEN is 0. -/
theorem emptyInputEncodesToNothing : Obligations.EmptyInputEncodesToNothing := by
  unfold Obligations.EmptyInputEncodesToNothing
  refine ⟨encodeText_nil, fun s p hp hop hlen => ?_⟩
  have hexec : exec .encode s = .next (completeOk [] s) := by
    rw [exec_encode_pending_input hp hop (inputOf_of_inLen_zero hlen s), encodeText_nil]
  exact ⟨completeOk [] s, hexec, rfl, rfl, statusWord_done [] s⟩

end Sys2Proof.Machine

namespace Sys2Proof.Machine

/-! ## O12, O43 and O46: sanitize, the result of DECODE and its completion (R85, R91, R92) -/

/-! ### Sanitize -/

theorem sanitize_cons (v : Variant) (c : Byte) (t : List Byte) :
    sanitize v (c :: t) = if isKept v c then c :: sanitize v t else sanitize v t := List.filter_cons

theorem lastSymbols_range (v : Variant) : ∀ c ∈ lastSymbols v, 0x2B ≤ c.toNat ∧ c.toNat ≤ 0x5F := by
  cases v <;> decide

/-- A kept byte is a visible ASCII character, so control characters, the space and 0x80 to 0xFF are dropped (R64, R85). -/
theorem isKept_range {v : Variant} {c : Byte} (h : isKept v c = true) : 0x20 < c.toNat ∧ c.toNat < 0x80 := by
  rcases (isKept_iff_ranges v c).1 h with hupper | hlower | hdigit | hlast | rfl
  · omega
  · omega
  · omega
  · have := lastSymbols_range v c hlast
    omega
  · decide

theorem isKept_eq_false_of_range {v : Variant} {c : Byte} (h : c.toNat ≤ 0x20 ∨ 0x80 ≤ c.toNat) : isKept v c = false := by
  rw [← Bool.not_eq_true]
  intro hkept
  have := isKept_range hkept
  omega

/-- Settles O43: the recursion is that of a filter, the dropped classes lie outside the visible ASCII characters, and the example
has a line terminator between two kept parts. -/
theorem sanitizeKeepsOrderDropsRest : Obligations.SanitizeKeepsOrderDropsRest := by
  unfold Obligations.SanitizeKeepsOrderDropsRest
  refine fun v => ⟨rfl, sanitize_cons v, fun c hc => isKept_eq_false_of_range ?_, by decide, by decide, by decide,
    by decide, ?_⟩
  · rcases hc with rfl | rfl | rfl | hhigh
    · decide
    · decide
    · decide
    · exact .inr hhigh
  · cases v <;> decide

/-! ### The result of DECODE -/

/-- DECODE gives bytes exactly if its length check passes, and then the first `out_len` of what the groups supply (R86, R91). -/
theorem decodeText_eq_ok_iff {v : Variant} {pad : Bool} {t out : List Byte} :
    decodeText v pad t = .ok out ↔
      (pad = false ∨ (sanitize v t).length % 4 = 0) ∧
        out = (unpack v (sanitize v t)).take (outLenOf pad (sanitize v t)) := by
  rw [decodeText_eq, ← lengthOk_eq]
  split
  · rename_i hok
    rw [CmdResult.ok.injEq, eq_comm, and_iff_right hok]
  · rename_i hbad
    exact ⟨nofun, fun h => absurd h.1 hbad⟩

/-- Settles O46: the groups always supply `out_len` bytes, so the first `out_len` of them are exactly that many. -/
theorem decodedLengthIsOutLen : Obligations.DecodedLengthIsOutLen := by
  unfold Obligations.DecodedLengthIsOutLen
  intro v pad t out h
  obtain ⟨-, hout⟩ := decodeText_eq_ok_iff.1 h
  exact ⟨hout, hout ▸ decoded_length v pad _, unpack_length v _, decodeText_length_le h⟩

/-! ### Completion without error -/

/-- The result stands in OBUF from index 0 on (R98). -/
theorem completeOk_holds (out : List Byte) (s : State) : Holds (completeOk out s).obuf 0 out := by
  intro k hk
  rw [completeOk_obuf, memLookup_memStoreList, if_pos (by omega)]
  simp

/-- OBUF keeps its bytes above the result (R92, R98). -/
theorem memLookup_completeOk_above {out : List Byte} {j : Nat} (h : out.length ≤ j) (s : State) :
    memLookup (completeOk out s).obuf j = memLookup s.obuf j := by
  rw [completeOk_obuf, memLookup_memStoreList, if_neg (by omega)]

theorem completeOk_outLen_toNat {out : List Byte} (h : out.length < 2 ^ 32) (s : State) :
    (completeOk out s).outLen.toNat = out.length := by
  rw [completeOk_outLen, BitVec.toNat_ofNat, Nat.mod_eq_of_lt h]

theorem completeOk_sameHost (out : List Byte) (s : State) : SameHost s (completeOk out s) := ⟨rfl, rfl, rfl, rfl⟩

/-- The completion of a pending DECODE whose input decodes to `out` stores `out` (R92, R98). -/
theorem exec_decode_pending_ok {s : State} {p : Pend} {d out : List Byte} (h : s.pend = some p) (hop : p.op = .decode)
    (hd : inputOf p s = some d) (hout : decodeText p.variant p.padding d = .ok out) :
    exec .decode s = .next (completeOk out s) := by
  have hexec : exec (opInstr .decode) s = .next (finish (decodeText p.variant p.padding d) s) := by
    have hpending := exec_pending_input s p d h hd
    rwa [hop] at hpending
  rwa [hout] at hexec

/-- Settles O12: the length check gives a result of `out_len` bytes, which is no longer than the input and fits in OBUF. -/
theorem decodeCompletesWithItsBytes : Obligations.DecodeCompletesWithItsBytes := by
  unfold Obligations.DecodeCompletesWithItsBytes
  intro s p d hi hp hop hlen hheld hcheck
  have hd : inputOf p s = some d := inputOf_eq_some.2 ⟨hlen, hheld⟩
  have hm := decoded_length p.variant p.padding (sanitize p.variant d)
  have hout := decodeText_eq_ok_iff.2 ⟨hcheck, rfl⟩
  generalize (unpack p.variant (sanitize p.variant d)).take _ = out at hm hout ⊢
  obtain ⟨hmax, hroom, h32⟩ := transformOf_fits hi hp hd (out := out) (by rw [hop]; exact hout)
  have hle : out.length ≤ p.inLen.toNat := hlen ▸ decodeText_length_le hout
  have houtLen := completeOk_outLen_toNat (Nat.lt_of_le_of_lt hmax h32) s
  rw [← hm]
  refine ⟨completeOk out s, exec_decode_pending_ok hp hop hd hout, completeOk_holds out s, houtLen,
    fun j hj => memLookup_completeOk_above hj s, ?_, ?_, statusWord_done out s, rfl, rfl, rfl, rfl, rfl,
    completeOk_sameHost out s⟩
  · rw [houtLen]; exact hle
  · rw [houtLen]; exact Nat.le_trans hmax hroom

end Sys2Proof.Machine

namespace Sys2Proof.Machine

/-! ## O8: a CMD write while IDLE, its two errors and its latched operands (R96, R97) -/

/-- The issue that fails its check (R106). -/
theorem issue_of_gt (op : Op) {s : State} (h : s.cfg.ibufSize < s.inLen.toNat) :
    issue op s = completeError .paramError (clearResult s) := if_pos h

/-- The issue that passes its check (R96). -/
theorem issue_of_le (op : Op) {s : State} (h : s.inLen.toNat ≤ s.cfg.ibufSize) :
    issue op s = { clearResult s with pend := some (latch op s) } := if_neg (Nat.not_lt.2 h)

/-- A word whose OP is not reserved issues ENCODE if its OP is 1, and DECODE otherwise (R52, R96). -/
theorem exec_decodeWord_idle {w : Word} (hw : ¬ (w.toNat % 4 = 0 ∨ w.toNat % 4 = 3)) {s : State} (h : s.pend = none) :
    exec (decodeWord w) s = .next (issue (if w.toNat % 4 = 1 then .encode else .decode) s) := by
  rw [decodeWord_op (by omega), exec_idle _ s h]

/-- Settles O8: the reserved words, then the words with IN_LEN too large, then those that latch. -/
theorem cmdWriteWhileIdleIssues : Obligations.CmdWriteWhileIdleIssues := by
  unfold Obligations.CmdWriteWhileIdleIssues
  intro s w rest hsch hp
  have hidle : (nextDraw (respond .written { s with schedule := rest })).pend = none := hp
  rw [step_write_issue hp hsch]
  by_cases hres : w.toNat % 4 = 0 ∨ w.toNat % 4 = 3
  · rw [exec_reserved_idle (decodeWord_reserved hres) hidle]
    exact ⟨_, rfl, by simp [hres, statusError]⟩
  · rw [exec_decodeWord_idle hres hidle]
    rcases Nat.lt_or_ge s.cfg.ibufSize s.inLen.toNat with hlen | hlen
    · rw [issue_of_gt _ (by exact hlen)]
      exact ⟨_, rfl, by simp [hres, hlen, statusError]⟩
    · rw [issue_of_le _ (by exact hlen)]
      exact ⟨_, rfl, by simp [hres, Nat.not_lt.2 hlen, statusClear, latch]⟩

/-! ## O51: the writes that are ignored (R99) -/

/-- Only CTRL, LINE_LEN and IN_LEN store a register write (R42). -/
theorem regWrite_of_gt_inLen (s : State) {off : Nat} (h : 0x00008 < off) (v : Word) : regWrite s off v = s := by
  unfold regWrite ctrlOffset lineLenOffset inLenOffset
  rw [if_neg (by omega), if_neg (by omega), if_neg (by omega)]

/-- Above IN_LEN and outside the IBUF window, a write that is no issue is ignored, IDLE or BUSY (R34, R41, R42, R99). -/
theorem memWrite_ignored (s : State) {off : Nat} (h : (0x00008 < off ∧ off < 0x10000) ∨ 0x20000 ≤ off)
    (n : Nat) (v : Word) : memWrite s off n v = s := by
  cases hb : busy s with
  | true => exact memWrite_busy hb off n v
  | false =>
    rcases h with ⟨hlo, hhi⟩ | hbeyond
    · rw [memWrite_register hb hhi, regWrite_of_gt_inLen s hlo]
    · rw [memWrite_buffer hb (by omega), bufferWrite_beyond s off v n hbeyond]

/-- Settles O51: none of these writes is an issue, and `memWrite` leaves the state as it is. -/
theorem ignoredWritesChangeNothing : Obligations.IgnoredWritesChangeNothing := by
  unfold Obligations.IgnoredWritesChangeNothing
  intro s rest off size v hoff hl hsch hign
  obtain ⟨hno_issue, hkept⟩ : (off ≠ 0x0000C ∨ busy s = true) ∧
      memWrite { s with schedule := rest } off size v = { s with schedule := rest } := by
    rcases hign with hb | hign
    · exact ⟨.inr hb, memWrite_busy (s := { s with schedule := rest }) hb off size v⟩
    · exact ⟨.inl (by omega), memWrite_ignored _ (by omega) size v⟩
  have hstep := step_write_store hoff hl hno_issue hsch
  rw [hkept] at hstep
  exact ⟨_, hstep, SameBlock.host s rest (.written :: s.responses) (s.draws + 1), rfl, rfl⟩

end Sys2Proof.Machine

namespace Sys2Proof.Machine

/-! ## O21, O13, O9, O10: the errors, at issue and at completion (R105 to R107, R110) -/

/-- An error entry sets all that the clearing at an issue sets, so an error at issue and one at completion leave the same
(R97, R110). -/
theorem completeError_clearResult (e : ErrCode) (s : State) : completeError e (clearResult s) = completeError e s := rfl

/-- While the command just latched is pending, STATUS reads BUSY and no flag of the result before it (R96). -/
theorem statusWord_latched (p : Pend) (s : State) :
    statusWord { clearResult s with pend := some p } = 0x00000001#32 := by
  simp [statusWord, busy, statusClear, bitOf, errNumber]

/-- In reachable states a command that ends in an error has made an error entry with a code, and done nothing else. -/
theorem exec_err_eq_completeError {i : Instr} {s t : State} (hi : Inv s) (h : exec i s = .next t)
    (herr : t.status.err = true) : ∃ e, e ≠ .noError ∧ t = completeError e s := by
  rcases exec_cases h with ⟨-, -, -, rfl⟩ | ⟨-, op, -, -, rfl⟩ | ⟨-, -, rfl⟩ | ⟨p, d, -, -, -, rfl⟩ | ⟨p, hp, -, rfl⟩
  · exact ⟨.paramError, nofun, completeError_clearResult _ s⟩
  · cases herr
  · exact ⟨.commandError, nofun, completeError_clearResult _ s⟩
  · rcases finish_cases p d s with ⟨out, -, hfin⟩ | ⟨-, hfin⟩
    · rw [hfin] at herr
      cases herr
    · exact ⟨.lengthError, nofun, hfin⟩
  · rw [hi.busy_status hp] at herr
    cases herr

/-- Settles O21: the command made an error entry, whose fields are those of the statement. -/
theorem errorEntryIsPrecise : Obligations.ErrorEntryIsPrecise := by
  unfold Obligations.ErrorEntryIsPrecise
  intro i s t hi hexec herr
  obtain ⟨e, he, rfl⟩ := exec_err_eq_completeError hi hexec herr
  exact ⟨e, he, rfl, rfl⟩

/-- The cause of LengthError (R105): only DECODE checks the length, and only with padding. -/
theorem transformOf_eq_lengthError_iff {p : Pend} {d : List Byte} :
    transformOf p.op p d = .error .lengthError ↔
      p.op = .decode ∧ p.padding = true ∧ (sanitize p.variant d).length % 4 ≠ 0 := by
  rcases transformOf_cases p d with ⟨out, hok⟩ | ⟨herr, hcause⟩
  · refine iff_of_false (by rw [hok]; nofun) ?_
    rintro ⟨hop, hpad, hmod⟩
    rw [hop] at hok
    obtain ⟨hnopad | hmod', -⟩ := decodeText_eq_ok_iff.1 hok
    · rw [hpad] at hnopad
      cases hnopad
    · exact hmod hmod'
  · exact iff_of_true herr hcause

/-- Settles O13: the completion either stores a result and leaves no error code, or makes the error entry of LengthError. -/
theorem lengthErrorExactly : Obligations.LengthErrorExactly := by
  unfold Obligations.LengthErrorExactly
  intro s p d hp hlen hheld
  rw [exec_pending_input s p d hp (inputOf_eq_some.2 ⟨hlen, hheld⟩), ← transformOf_eq_lengthError_iff]
  refine ⟨_, rfl, ?_⟩
  rcases finish_cases p d s with ⟨out, hok, hfin⟩ | ⟨herr, hfin⟩ <;> rw [hfin]
  · exact ⟨iff_of_false nofun (by rw [hok]; nofun), nofun, fun _ => statusWord_done out s⟩
  · exact ⟨iff_of_true rfl herr, fun _ => ⟨statusWord_error .lengthError s, rfl⟩, fun hne => absurd rfl hne⟩

/-- Settles O9: the issue of either command fails its check exactly if IN_LEN > IBUF_SIZE, and latches otherwise. -/
theorem paramErrorWhenInLenExceedsIbuf : Obligations.ParamErrorWhenInLenExceedsIbuf := by
  unfold Obligations.ParamErrorWhenInLenExceedsIbuf
  intro s i hi hp
  obtain ⟨op, rfl⟩ : ∃ op, i = opInstr op := hi.elim (⟨.encode, ·⟩) (⟨.decode, ·⟩)
  refine ⟨_, exec_idle op s hp, ?_⟩
  rcases Nat.lt_or_ge s.cfg.ibufSize s.inLen.toNat with hgt | hle
  · rw [issue_of_gt op hgt, completeError_clearResult]
    exact ⟨iff_of_true rfl hgt, fun _ => ⟨statusWord_error .paramError s, rfl⟩, fun heq => absurd heq hgt.ne'⟩
  · rw [issue_of_le op hle]
    exact ⟨iff_of_false nofun hle.not_gt, fun hgt => absurd hgt hle.not_gt, fun _ => statusWord_latched _ s⟩

/-- Settles O10: both reserved commands make the error entry of CommandError, and every word with OP 0 or 3 is one of them. -/
theorem reservedCommandsEndWithCommandError : Obligations.ReservedCommandsEndWithCommandError := by
  unfold Obligations.ReservedCommandsEndWithCommandError
  intro s hp
  refine ⟨exec_reserved_idle (.inl rfl) hp, exec_reserved_idle (.inr rfl) hp, fun w hw => ?_⟩
  exact ⟨_, exec_reserved_idle (decodeWord_reserved hw) hp, rfl, statusWord_error .commandError (clearResult s)⟩

end Sys2Proof.Machine

namespace Sys2Proof.Machine

/-! ## O28: the reset event (R118, R119) -/

/-- With nothing scheduled an IDLE block has no step to take (R101, R116). -/
theorem step_idle_nil {s : State} (hp : s.pend = none) (hsch : s.schedule = []) : step s = .next s :=
  step_settled ((nextAction_nil hsch).trans (codecTurn_none hp))

/-- A reset is the next event: the step is the reset event, whether the block is IDLE or BUSY (R118). -/
theorem step_reset {s : State} {rest : List Event} (hsch : s.schedule = .reset :: rest) :
    step s = .next (nextDraw (resetEvent { s with schedule := rest })) :=
  step_settled (nextAction_reset hsch)

/-- CTRL reads 0x00000002 after reset (R31). -/
theorem ctrlWord_reset : ctrlWord State.reset.ctrl = 0x00000002#32 := by decide

/-- After a reset event STATUS reads 0: the pending command is gone, and with it BUSY (R119). -/
theorem statusWord_resetEvent (s : State) : statusWord (resetEvent s) = 0#32 := by
  simp [statusWord, busy, State.reset, bitOf, errNumber]

/-- Settles O28: the step is the reset event, whose block is that of `State.reset`, and the block it leaves is IDLE. -/
theorem resetEventRestoresSpecValues : Obligations.ResetEventRestoresSpecValues := by
  unfold Obligations.ResetEventRestoresSpecValues
  intro s rest hsch
  exact ⟨_, step_reset hsch, ctrlWord_reset, rfl, rfl, rfl, rfl, statusWord_resetEvent { s with schedule := rest }, rfl,
    rfl, rfl, fun _ => rfl, fun _ => rfl, rfl, rfl, rfl, fun hrest => step_idle_nil rfl hrest⟩

end Sys2Proof.Machine

namespace Sys2Proof

/-! ## O3 and O1: decode and encode agree under every value of the ignored bits (R51, R52) -/

/-- The mask drops the ignored bits 31:2, whatever they hold (R51). -/
theorem or_ignored_and_opMask (w : Word) (ign : BitVec 30) :
    (w ||| (ign ++ 0#2)) &&& 0x00000003#32 = w &&& 0x00000003#32 := by
  have hmask : ∀ j, 2 ≤ j → j < 32 → (0x00000003#32).getLsbD j = false := by decide
  apply BitVec.eq_of_getLsbD_eq
  intro j hj
  rw [BitVec.getLsbD_and, BitVec.getLsbD_or, BitVec.getLsbD_and, BitVec.getLsbD_append]
  rcases Nat.lt_or_ge j 2 with hop | hign
  · simp [hop]
  · simp [hmask j hign hj]

/-- A command's word with any value of the ignored bits decodes to the command (R51). -/
theorem decodeWord_encode_or_ignored (i : Instr) (ign : BitVec 30) :
    decodeWord (encode i ||| (ign ++ 0#2)) = i := by
  rw [decodeWord_eq_iff_masked, or_ignored_and_opMask, ← encode_decodeWord, decodeWord_encode]

/-- Fewer than four bytes are no command (R51). -/
theorem decodeBytes_truncated : ∀ {bs : List Byte}, bs.length < 4 → decodeBytes bs = .error (.truncated bs.length)
  | [], _ => rfl
  | [_], _ => rfl
  | [_, _], _ => rfl
  | [_, _, _], _ => rfl

/-- Settles O3: decoding a word, as bytes and as a table word, reads OP alone, and the ignored bits do not reach it. -/
theorem decodeOfEncodeIsTheCommand : Obligations.DecodeOfEncodeIsTheCommand := by
  unfold Obligations.DecodeOfEncodeIsTheCommand
  refine ⟨fun i ign rest _ => ⟨?_, ?_⟩, fun i => ?_, fun bs h => decodeBytes_truncated h⟩
  · rw [decodeBytes_lanesOf, decodeWord_encode_or_ignored]
  · rw [decodeTableWord_eq, tableWord_toNat, decodeWord_encode_or_ignored]
  · rw [encodeBytes, decodeBytes_lanesOf_nil, decodeWord_encode]

/-- Settles O1: the OP of each word, with the ignored bits all 0 and all 1. -/
theorem writtenOutWordsDecode : Obligations.WrittenOutWordsDecode := by
  unfold Obligations.WrittenOutWordsDecode
  exact ⟨decodeWord_of_one rfl, decodeWord_of_two rfl, decodeWord_of_zero rfl, decodeWord_of_three rfl,
    decodeWord_of_one rfl, decodeWord_of_two rfl, decodeWord_of_zero rfl, decodeWord_of_three rfl⟩

end Sys2Proof

namespace Sys2Proof.Machine

/-! ## O30, O29 and O31: the invariant and the parameters under a step -/

/-! ### What a command and a host write leave of the state -/

/-- Registers, IBUF and the host's side are no command's to change, at issue or at completion (R43). -/
theorem exec_frame {i : Instr} {s t : State} (h : exec i s = .next t) :
    t.ctrl = s.ctrl ∧ t.lineLen = s.lineLen ∧ t.inLen = s.inLen ∧ t.ibuf = s.ibuf ∧ SameHost s t := by
  rcases exec_cases h with ⟨-, -, -, rfl⟩ | ⟨-, op, -, -, rfl⟩ | ⟨-, -, rfl⟩ | ⟨p, d, -, -, -, rfl⟩ | ⟨p, -, -, rfl⟩
  case inr.inr.inr.inl =>
    rcases finish_cases p d s with ⟨out, -, hfin⟩ | ⟨-, hfin⟩ <;> rw [hfin] <;>
      exact ⟨rfl, rfl, rfl, rfl, rfl, rfl, rfl, rfl⟩
  all_goals exact ⟨rfl, rfl, rfl, rfl, rfl, rfl, rfl, rfl⟩

/-- A host write that is no issue can change three registers and IBUF, and nothing else (R42). -/
theorem memWrite_eq (s : State) (off n : Nat) (v : Word) :
    memWrite s off n v = { s with
      ctrl := (memWrite s off n v).ctrl, lineLen := (memWrite s off n v).lineLen,
      inLen := (memWrite s off n v).inLen, ibuf := (memWrite s off n v).ibuf } := by
  rcases memWrite_cases s off n v with h | ⟨-, -, h⟩ | ⟨-, -, h⟩ | ⟨-, -, h⟩ | ⟨-, -, h⟩ <;> rw [h]
  rw [bufferWrite_eq]

@[simp] theorem memWrite_cfg (s : State) (off n : Nat) (v : Word) : (memWrite s off n v).cfg = s.cfg := by
  rw [memWrite_eq]
@[simp] theorem memWrite_status (s : State) (off n : Nat) (v : Word) : (memWrite s off n v).status = s.status := by
  rw [memWrite_eq]
@[simp] theorem memWrite_outLen (s : State) (off n : Nat) (v : Word) : (memWrite s off n v).outLen = s.outLen := by
  rw [memWrite_eq]
@[simp] theorem memWrite_obuf (s : State) (off n : Nat) (v : Word) : (memWrite s off n v).obuf = s.obuf := by
  rw [memWrite_eq]
@[simp] theorem memWrite_pend (s : State) (off n : Nat) (v : Word) : (memWrite s off n v).pend = s.pend := by
  rw [memWrite_eq]

/-! ### The invariant -/

/-- Every command keeps the invariant: its errors, its issue and its result each do. -/
theorem Inv.exec {i : Instr} {s t : State} (hi : Inv s) (h : Machine.exec i s = .next t) : Inv t := by
  rcases exec_cases h with ⟨-, -, -, rfl⟩ | ⟨-, op, -, hlen, rfl⟩ | ⟨-, -, rfl⟩ | ⟨p, d, hp, -, hd, rfl⟩ | ⟨p, -, -, rfl⟩
  · exact hi.clearResult.completeError nofun
  · exact hi.latch op hlen
  · exact hi.clearResult.completeError nofun
  · rcases finish_cases p d s with ⟨out, hout, hfin⟩ | ⟨-, hfin⟩ <;> rw [hfin]
    · exact hi.completeOk (transformOf_fits hi hp hd hout).1
    · exact hi.completeError nofun
  · exact hi

/-- The invariant is not about the schedule, the answers and the draw counter. -/
theorem Inv.host {s : State} (hi : Inv s) (sch : List Event) (rs : List Response) (d : Nat) :
    Inv { s with schedule := sch, responses := rs, draws := d } := hi.of_sameBlock (SameBlock.host s sch rs d)

/-- Settles O30: each kind of step is an operation that keeps the invariant, with a change of the host's side around it. -/
theorem stepKeepsInv : Obligations.StepKeepsInv := by
  unfold Obligations.StepKeepsInv
  intro s t hi h
  rcases step_cases h with ⟨sch, rs, d, rfl, -⟩ | ⟨addr, n, v, rest, off, -, -, -, rfl⟩ | ⟨rest, -, rfl⟩ |
    ⟨v, rest, -, -, hexec⟩ | ⟨p, sch, -, -, hexec⟩
  · exact hi.host sch rs d
  · exact ((hi.host rest s.responses s.draws).memWrite off n v).host _ _ _
  · exact (Inv.resetEvent (s := { s with schedule := rest }) hi.config).host _ _ _
  · exact (hi.host rest _ _).exec hexec
  · exact (hi.host sch s.responses _).exec hexec

/-- Settles O29: the reset state is what a reset event leaves of itself, and the reference configuration is legal. -/
theorem resetSatisfiesInv : Obligations.ResetSatisfiesInv := by
  unfold Obligations.ResetSatisfiesInv
  exact Inv.resetEvent (s := State.reset) (by decide)

/-- Settles O31: no write, no reset event and no command changes the parameters. -/
theorem stepKeepsParameters : Obligations.StepKeepsParameters := by
  unfold Obligations.StepKeepsParameters
  intro s t h
  rcases step_cases h with ⟨sch, rs, d, rfl, -⟩ | ⟨addr, n, v, rest, off, -, -, -, rfl⟩ | ⟨rest, -, rfl⟩ |
    ⟨v, rest, -, -, hexec⟩ | ⟨p, sch, -, -, hexec⟩
  · rfl
  · simp
  · rfl
  · obtain ⟨-, -, -, -, hhost⟩ := exec_frame hexec
    exact hhost.cfg
  · obtain ⟨-, -, -, -, hhost⟩ := exec_frame hexec
    exact hhost.cfg

end Sys2Proof.Machine

namespace Sys2Proof.Machine

/-! ## O48, O44, O45, O47 and O16: DECODE of encoded, stripped and partial text (R84 to R91, R94) -/

/-- Settles O48: sanitize takes the text back to its symbols, whose number passes the length check, and of what their groups
supply the size computed for them keeps the encoded bytes. -/
theorem decodeOfEncodeIsTheInput : Obligations.DecodeOfEncodeIsTheInput := by
  unfold Obligations.DecodeOfEncodeIsTheInput
  intro v pad ll b
  obtain ⟨junk, hunpack⟩ := unpack_encodeText v pad b
  rw [decodeText_eq_ok_iff, sanitize_encodeText]
  refine ⟨(lengthOk_eq _ _).1 (lengthOk_encodeText v pad b), ?_⟩
  rw [outLenOf_encodeText, hunpack, List.take_left]

theorem decodeText_congr {v : Variant} {t t' : List Byte} (h : sanitize v t = sanitize v t') (pad : Bool) :
    decodeText v pad t = decodeText v pad t' := by
  rw [decodeText_eq, decodeText_eq, h]

/-- Settles O44: DECODE reads its text through sanitize alone, which leaves sanitized text as it is. -/
theorem decodeSeesSanitizedTextOnly : Obligations.DecodeSeesSanitizedTextOnly := by
  unfold Obligations.DecodeSeesSanitizedTextOnly
  exact fun v pad t t' h => ⟨decodeText_congr h pad, decodeText_congr (sanitize_idem v t) pad⟩

/-- Settles O45: the arithmetic of R90 for the packed value and for its bytes. -/
theorem unpackGroupBytes : Obligations.UnpackGroupBytes := by
  unfold Obligations.UnpackGroupBytes
  exact fun u0 u1 u2 u3 => ⟨packSymbols_toNat u0 u1 u2 u3, unpackGroup_toNat u0 u1 u2 u3⟩

/-! ### The missing positions of a partial final group -/

/-- Symbols 0 and 1 alone give byte 0 of a group (R90). -/
theorem unpackGroup_take_one (u0 u1 u2 u3 u2' u3' : Sym) :
    (unpackGroup u0 u1 u2 u3).take 1 = (unpackGroup u0 u1 u2' u3').take 1 := by
  simp only [unpackGroup_toNat, List.take_succ_cons, List.take_zero]

/-- Symbols 0 to 2 alone give bytes 0 and 1 of a group (R90). -/
theorem unpackGroup_take_two (u0 u1 u2 u3 u3' : Sym) :
    (unpackGroup u0 u1 u2 u3).take 2 = (unpackGroup u0 u1 u2 u3').take 2 := by
  simp only [unpackGroup_toNat, List.take_succ_cons, List.take_zero]

/-- Without padding the size is that of the symbols alone (R72). -/
theorem outLenOf_false (s : List Byte) : outLenOf false s = 3 * s.length / 4 := by
  rw [outLenOf, padCount_false, Nat.sub_zero]

theorem outLenOf_false_group (a b c d : Byte) (rest : List Byte) :
    outLenOf false (a :: b :: c :: d :: rest) = 3 + outLenOf false rest := by
  simp only [outLenOf_false, List.length_cons]
  omega

theorem unpack_group_take (v : Variant) (a b c d : Byte) (rest : List Byte) (n : Nat) :
    (unpack v (a :: b :: c :: d :: rest)).take (3 + n) =
      unpackGroup (symbolValue v a) (symbolValue v b) (symbolValue v c) (symbolValue v d) ++ (unpack v rest).take n :=
  List.take_length_add_append (l₁ := unpackGroup _ _ _ _) n

/-- Settles O47: a full group is followed by the same argument for the rest, and a partial one of two or three symbols counts
only the bytes that its own symbols give. -/
theorem missingPositionsCannotBeObserved : Obligations.MissingPositionsCannotBeObserved := by
  unfold Obligations.MissingPositionsCannotBeObserved
  intro v s fill hmod hfill
  induction s using quads_induction with
  | nil => rfl
  | one a =>
    have hout : outLenOf false [a] = 0 := by simp [outLenOf_false]
    rw [hout, List.take_zero, List.take_zero]
  | two a b =>
    have hout : outLenOf false [a, b] = 1 := by simp [outLenOf_false]
    obtain ⟨x, y, rfl⟩ : ∃ x y, fill = [x, y] := List.length_eq_two.1 (by simp at hmod; omega)
    rw [hout]
    exact unpackGroup_take_one _ _ _ _ _ _
  | three a b c =>
    have hout : outLenOf false [a, b, c] = 2 := by simp [outLenOf_false]
    obtain ⟨x, rfl⟩ : ∃ x, fill = [x] := List.length_eq_one_iff.1 (by simp at hmod; omega)
    rw [hout]
    exact unpackGroup_take_two _ _ _ _ _
  | group a b c d rest ih =>
    have hrest := ih (by simp only [List.length_cons] at hmod; omega)
    simp only [List.cons_append, outLenOf_false_group, unpack_group_take, hrest]

/-! ### Text of which nothing is kept -/

/-- Text that sanitize strips to nothing gives no byte and passes either length check (R70, R84). -/
theorem decodeText_of_sanitize_nil {v : Variant} {t : List Byte} (h : sanitize v t = []) (pad : Bool) :
    decodeText v pad t = .ok [] := by
  rw [decodeText_eq_ok_iff, h]
  exact ⟨.inr rfl, List.take_nil.symm⟩

/-- Settles O16: the completion stores the empty result, so OBUF keeps every byte and OUT_LEN is 0. -/
theorem strippedTextDecodesToNothing : Obligations.StrippedTextDecodesToNothing := by
  unfold Obligations.StrippedTextDecodesToNothing
  intro s p d hp hop hlen hheld hstripped
  have hnone : sanitize p.variant d = [] := List.filter_eq_nil_iff.2 fun c hc => by simp [hstripped c hc]
  have hexec := exec_decode_pending_ok hp hop (inputOf_eq_some.2 ⟨hlen, hheld⟩) (decodeText_of_sanitize_nil hnone p.padding)
  exact ⟨completeOk [] s, hexec, rfl, rfl, statusWord_done [] s⟩

end Sys2Proof.Machine

namespace Sys2Proof.Machine

/-! ## O37 to O42 and O11: the text of ENCODE and its completion (R75 to R83) -/

/-- Settles O37: the arithmetic of R76 for the packed value and for its slices. -/
theorem encodeGroupSlices : Obligations.EncodeGroupSlices := by
  unfold Obligations.EncodeGroupSlices
  intro v b0 b1 b2
  obtain ⟨e0, e1, e2, e3⟩ := slice_packBytes_eq_ofNat b0 b1 b2
  rw [← e0, ← e1, ← e2, ← e3]
  exact ⟨packBytes_toNat b0 b1 b2, rfl⟩

/-- Settles O38: the first line of a text that has a full one, and the last line of a shorter text. -/
theorem lineWrappingByLines : Obligations.LineWrappingByLines := by
  unfold Obligations.LineWrappingByLines
  exact fun v pad ll d hll => ⟨encodeText_first_line v pad ll d hll, encodeText_last_line v pad ll d hll⟩

/-! ### Lengths -/

/-- Settles O39: symbols and terminators, with none of the latter in an unwrapped text. -/
theorem encodedLength : Obligations.EncodedLength := by
  unfold Obligations.EncodedLength
  intro v pad ll d
  refine ⟨?_, encodeText_length_le v pad ll d⟩
  rw [← encodeText_zero_length v pad d]
  rcases Nat.eq_zero_or_pos ll with rfl | hll
  · rfl
  · rw [if_neg hll.ne', encodeText_wrapped_length v pad ll hll]

/-- Settles O40: the number of symbols, by whether the input ends in a tail. -/
theorem unwrappedLengthLaws : Obligations.UnwrappedLengthLaws := by
  unfold Obligations.UnwrappedLengthLaws
  intro v d
  rw [encodeText_zero_length, encodeText_zero_length, if_pos rfl, if_neg Bool.false_ne_true]
  by_cases htail : d.length % 3 = 0
  · rw [if_pos htail, if_pos htail]
    omega
  · rw [if_neg htail, if_neg htail]
    omega

/-! ### Bytes -/

/-- Settles O41: a byte of the text is one of an unwrapped text or of a terminator. -/
theorem encodedBytesAreSymbolsPadsAndTerminators : Obligations.EncodedBytesAreSymbolsPadsAndTerminators := by
  unfold Obligations.EncodedBytesAreSymbolsPadsAndTerminators
  intro v pad ll d c hc
  rcases encodeText_mem v pad ll d c hc with ⟨d', hunwrapped⟩ | ⟨hll, hterm⟩
  · exact (encodeText_zero_mem v pad d' c hunwrapped).imp_right .inl
  · exact .inr (.inr ⟨by simpa [crlf] using hterm, hll⟩)

/-- The UrlSafe byte that stands where a Standard text has `c` (R59). -/
def toUrlSafe (c : Byte) : Byte := if c = 0x2B#8 then 0x2D#8 else if c = 0x2F#8 then 0x5F#8 else c

theorem toUrlSafe_cases (c : Byte) :
    c = toUrlSafe c ∨ (c = 0x2B#8 ∧ toUrlSafe c = 0x2D#8) ∨ (c = 0x2F#8 ∧ toUrlSafe c = 0x5F#8) := by
  unfold toUrlSafe
  split
  · exact .inr (.inl ⟨‹_›, rfl⟩)
  · split
    · exact .inr (.inr ⟨‹_›, rfl⟩)
    · exact .inl rfl

theorem toUrlSafe_fwd (i : Sym) : toUrlSafe (fwd .standard i) = fwd .urlSafe i := by
  revert i; decide

theorem map_toUrlSafe_crlf : crlf.map toUrlSafe = crlf := by decide

theorem map_toUrlSafe_encodeGroup (b0 b1 b2 : Byte) :
    (encodeGroup .standard b0 b1 b2).map toUrlSafe = encodeGroup .urlSafe b0 b1 b2 := by
  simp only [encodeGroup, List.map_cons, List.map_nil, toUrlSafe_fwd]

theorem map_toUrlSafe_encodeGroups (ll count : Nat) (d : List Byte) :
    (encodeGroups .standard ll count d).map toUrlSafe = encodeGroups .urlSafe ll count d := by
  induction d using groups_induction generalizing count with
  | nil => rfl
  | one => rfl
  | two => rfl
  | group b0 b1 b2 rest ih =>
    simp only [encodeGroups, List.map_append, map_toUrlSafe_encodeGroup, apply_ite (List.map toUrlSafe),
      map_toUrlSafe_crlf, ih]

theorem map_toUrlSafe_encodeTail (pad : Bool) (r : Nat) (w : Group) :
    (encodeTail .standard pad r w).map toUrlSafe = encodeTail .urlSafe pad r w := by
  unfold encodeTail
  rw [List.map_map]
  refine List.map_congr_left fun e _ => ?_
  cases e with
  | data j => exact toUrlSafe_fwd (slice w j)
  | pad => rfl

theorem map_toUrlSafe_tailText (pad : Bool) (d : List Byte) :
    (tailText .standard pad d).map toUrlSafe = tailText .urlSafe pad d := by
  induction d using groups_induction with
  | nil => rfl
  | one b0 => exact map_toUrlSafe_encodeTail pad 1 _
  | two b0 b1 => exact map_toUrlSafe_encodeTail pad 2 _
  | group b0 b1 b2 rest ih => exact ih

/-- The UrlSafe text is the Standard text with each byte replaced (R83). -/
theorem map_toUrlSafe_encodeText (pad : Bool) (ll : Nat) (d : List Byte) :
    (encodeText .standard pad ll d).map toUrlSafe = encodeText .urlSafe pad ll d := by
  simp only [encodeText_eq, List.map_append, map_toUrlSafe_encodeGroups, map_toUrlSafe_tailText,
    apply_ite (List.map toUrlSafe), map_toUrlSafe_crlf, List.map_nil]

/-- Settles O42: the UrlSafe text is the Standard one byte by byte, and a byte is replaced only if it is `+` or `/`. -/
theorem variantDivergence : Obligations.VariantDivergence := by
  unfold Obligations.VariantDivergence
  intro pad ll d
  rw [← map_toUrlSafe_encodeText]
  refine ⟨(List.length_map _).symm, fun k a b ha hb => ?_⟩
  obtain rfl : toUrlSafe a = b := by simpa [ha] using hb
  exact toUrlSafe_cases a

/-! ### Completion -/

/-- Settles O11: the completion stores the text, which fits as the invariant bounds the input. -/
theorem encodeCompletesWithItsText : Obligations.EncodeCompletesWithItsText := by
  unfold Obligations.EncodeCompletesWithItsText
  intro s p d hi hp hop hlen hheld
  have hd : inputOf p s = some d := inputOf_eq_some.2 ⟨hlen, hheld⟩
  have hexec := exec_encode_pending_input hp hop hd
  obtain ⟨hmax, hroom, h32⟩ := transformOf_fits hi hp hd
    (out := encodeText p.variant p.padding p.lineLen.toNat d) (by rw [hop]; rfl)
  generalize encodeText p.variant p.padding p.lineLen.toNat d = out at hexec hmax ⊢
  have houtLen := completeOk_outLen_toNat (Nat.lt_of_le_of_lt hmax h32) s
  refine ⟨completeOk out s, hexec, completeOk_holds out s, houtLen, fun j hj => memLookup_completeOk_above hj s, ?_,
    statusWord_done out s, rfl, rfl, rfl, rfl, rfl, completeOk_sameHost out s⟩
  rw [houtLen]
  exact Nat.le_trans hmax hroom

end Sys2Proof.Machine

namespace Sys2Proof.Machine

/-! ## O14, O18, O17, O19, O20, O7 and O22: what a command stops on, leaves and depends on (R30, R43, R96 to R99, R109) -/

/-! ### When a command stops -/

/-- While another command is pending, a command's word is a CMD write that is ignored (R99). -/
theorem exec_other_pending {s : State} {p : Pend} (hp : s.pend = some p) {i : Instr} (hi : i ≠ opInstr p.op) :
    exec i s = .next s := by
  have hother : ∀ op tr, i = opInstr op → commandStep op tr s = .next s := by
    rintro op tr rfl
    have hop : p.op ≠ op := fun h => hi (by rw [h])
    simp [commandStep, hp, hop]
  cases i with
  | encode => exact hother .encode encodeTransform rfl
  | decode => exact hother .decode decodeTransform rfl
  | reservedOp0 => simp [exec, execReservedOp0, reservedStep, hp]
  | reservedOp3 => simp [exec, execReservedOp3, reservedStep, hp]

/-- A completion whose input is not all written is the model fault (R30, R98). -/
theorem exec_pending_fault {s : State} {p : Pend} (hp : s.pend = some p) (hd : inputOf p s = none) :
    exec (opInstr p.op) s = .fault .uninitialisedInput := by
  rw [exec_pending s p hp, complete, hd]

/-- A completion that answers a next state has found its input and put the result into the state (R98). -/
theorem exec_pending_next {s t : State} {p : Pend} (hp : s.pend = some p) (h : exec (opInstr p.op) s = .next t) :
    ∃ d, inputOf p s = some d ∧ t = finish (transformOf p.op p d) s := by
  cases hd : inputOf p s with
  | none =>
    rw [exec_pending_fault hp hd] at h
    cases h
  | some d =>
    rw [exec_pending_input s p d hp hd] at h
    cases h
    exact ⟨d, rfl, rfl⟩

/-- A command answers a next state, unless it is the pending one and a byte of its input holds no value. -/
theorem exec_next_or_fault (i : Instr) (s : State) :
    (∃ t, exec i s = .next t) ∨
    (exec i s = .fault .uninitialisedInput ∧ ∃ p, s.pend = some p ∧ i = opInstr p.op ∧ inputOf p s = none) := by
  cases hp : s.pend with
  | none =>
    obtain ⟨t, h, -⟩ := exec_idle_next i hp
    exact .inl ⟨t, h⟩
  | some p =>
    by_cases hi : i = opInstr p.op
    · subst hi
      cases hd : inputOf p s with
      | none => exact .inr ⟨exec_pending_fault hp hd, p, rfl, rfl, hd⟩
      | some d => exact .inl ⟨_, exec_pending_input s p d hp hd⟩
    · exact .inl ⟨s, exec_other_pending hp hi⟩

/-- Settles O14: the completion looks for its input, and does nothing but stop if it finds none. -/
theorem unwrittenInputFaults : Obligations.UnwrittenInputFaults := by
  unfold Obligations.UnwrittenInputFaults
  intro s p hp
  rw [← inputOf_eq_none]
  refine ⟨fun h => ?_, exec_pending_fault hp⟩
  by_contra hd
  obtain ⟨d, hd⟩ := Option.ne_none_iff_exists'.1 hd
  rw [exec_pending_input s p d hp hd] at h
  cases h

/-- Settles O18: of the two outcomes of a command, neither is a refusal, and the fault is that of the pending one. -/
theorem commandsStopOnlyOnUnwrittenInput : Obligations.CommandsStopOnlyOnUnwrittenInput := by
  unfold Obligations.CommandsStopOnlyOnUnwrittenInput
  intro i s
  rcases exec_next_or_fault i s with ⟨t, h⟩ | ⟨h, p, hp, hi, hd⟩ <;> rw [h]
  · exact ⟨nofun, nofun⟩
  · exact ⟨nofun, fun r _ => ⟨rfl, p, hp, hi, inputOf_eq_none.1 hd⟩⟩

/-! ### What a command leaves of OBUF -/

/-- An issue writes no byte of OBUF, whether or not it passes its checks (R96). -/
theorem exec_idle_obuf {i : Instr} {s t : State} (hp : s.pend = none) (h : exec i s = .next t) : t.obuf = s.obuf := by
  rcases exec_cases h with ⟨-, -, -, rfl⟩ | ⟨-, op, -, -, rfl⟩ | ⟨-, -, rfl⟩ | ⟨p, d, hp', -⟩ | ⟨p, -, -, rfl⟩
  · rfl
  · rfl
  · rfl
  · rw [hp] at hp'
    cases hp'
  · rfl

/-- OBUF keeps every byte that OUT_LEN does not count: a result that fits is counted whole (R25, R43). -/
theorem exec_obuf_above {i : Instr} {s t : State} (hi : Inv s) (h : exec i s = .next t) {j : Nat}
    (hj : t.outLen.toNat ≤ j) : memLookup t.obuf j = memLookup s.obuf j := by
  rcases exec_cases h with ⟨hp, -⟩ | ⟨hp, -⟩ | ⟨hp, -⟩ | ⟨p, d, hp, -, hd, rfl⟩ | ⟨p, -, -, rfl⟩
  · rw [exec_idle_obuf hp h]
  · rw [exec_idle_obuf hp h]
  · rw [exec_idle_obuf hp h]
  · rcases finish_cases p d s with ⟨out, hout, hfin⟩ | ⟨-, hfin⟩ <;> rw [hfin] at hj ⊢
    · obtain ⟨hmax, -, h32⟩ := transformOf_fits hi hp hd hout
      rw [completeOk_outLen_toNat (Nat.lt_of_le_of_lt hmax h32)] at hj
      exact memLookup_completeOk_above hj s
    · rfl
  · rfl

/-- Settles O17: the frame of the registers, IBUF and the host's side, and that of OBUF. -/
theorem commandsLeaveTheRestUnchanged : Obligations.CommandsLeaveTheRestUnchanged := by
  unfold Obligations.CommandsLeaveTheRestUnchanged
  intro i s t hi h
  obtain ⟨hctrl, hline, hin, hibuf, hhost⟩ := exec_frame h
  exact ⟨hctrl, hline, hin, hhost, fun a => by rw [hibuf], fun j hj => exec_obuf_above hi h hj,
    fun hp j => by rw [exec_idle_obuf hp h]⟩

/-! ### What a completion depends on -/

/-- Two states that agree on a command's range give it the same input (R53). -/
theorem inputOf_congr {p : Pend} {s s' : State}
    (h : ∀ a, a < p.inLen.toNat → memLookup s'.ibuf a = memLookup s.ibuf a) : inputOf p s' = inputOf p s :=
  memTake_congr fun a ha => by rw [Nat.zero_add]; exact h a ha

/-- A result put into two states gives the same STATUS, OUT_LEN and counted bytes of OBUF. -/
theorem finish_agree (r : CmdResult) (s s' : State) :
    statusWord (finish r s') = statusWord (finish r s) ∧ (finish r s').outLen = (finish r s).outLen ∧
    ∀ j, j < (finish r s).outLen.toNat → memLookup (finish r s').obuf j = memLookup (finish r s).obuf j := by
  cases r with
  | ok out =>
    refine ⟨(statusWord_done out s').trans (statusWord_done out s).symm, rfl, fun j hj => ?_⟩
    have hlen : j < out.length := Nat.lt_of_lt_of_le hj (by
      rw [finish, completeOk_outLen, BitVec.toNat_ofNat]
      exact Nat.mod_le _ _)
    have hs := completeOk_holds out s j hlen
    have hs' := completeOk_holds out s' j hlen
    rw [Nat.zero_add] at hs hs'
    exact hs'.trans hs.symm
  | error e =>
    exact ⟨(statusWord_error e s').trans (statusWord_error e s).symm, rfl, fun j hj => absurd hj (Nat.not_lt_zero j)⟩

/-- Settles O19: both completions find the same input, and put the same result into their states. -/
theorem resultDependsOnLatchedOperandsOnly : Obligations.ResultDependsOnLatchedOperandsOnly := by
  unfold Obligations.ResultDependsOnLatchedOperandsOnly
  intro s s' t p _ hp hp' hagree h
  obtain ⟨d, hd, rfl⟩ := exec_pending_next hp h
  exact ⟨_, exec_pending_input s' p d hp' ((inputOf_congr hagree).trans hd), finish_agree _ s s'⟩

theorem finish_idle (r : CmdResult) (s : State) : finish r (idle s) = finish r s := by cases r <;> rfl

/-- A completion reads the latched operands it is given and not PEND, which it discards (R98). -/
theorem complete_idle (tr : Pend → List Byte → CmdResult) (p : Pend) (s : State) :
    complete tr p (idle s) = complete tr p s := by
  have hinput : inputOf p (idle s) = inputOf p s := rfl
  simp only [complete, hinput, finish_idle]

theorem exec_decode_latched {s : State} {p : Pend} (hop : p.op = .decode) :
    exec .decode { s with pend := some p } = complete decodeTransform p s := by
  have h := exec_pending { s with pend := some p } p rfl
  rw [hop, ← complete_idle] at h
  exact h.trans (complete_idle decodeTransform p s)

/-- Settles O20: the completion is that of the transform of DECODE, of which the latched line length is no operand. -/
theorem decodeIgnoresLineLen : Obligations.DecodeIgnoresLineLen := by
  unfold Obligations.DecodeIgnoresLineLen
  intro s p ll hop
  exact (exec_decode_latched (s := s) (p := { p with lineLen := ll }) hop).trans (exec_decode_latched (s := s) hop).symm

/-! ### Issue, and the order of the errors -/

/-- Settles O7: both commands pass the check, clear the previous result and latch. -/
theorem encodeDecodeIssueLatches : Obligations.EncodeDecodeIssueLatches := by
  unfold Obligations.EncodeDecodeIssueLatches
  intro s hp hlen
  have hissue : ∀ op, exec (opInstr op) s = .next { clearResult s with pend := some (latch op s) } := fun op => by
    rw [exec_idle op s hp, issue_of_le op hlen]
  exact ⟨⟨_, hissue .encode, statusWord_latched _ s, rfl⟩, ⟨_, hissue .decode, statusWord_latched _ s, rfl⟩⟩

/-- LengthError is new only after the completion of a DECODE (R105). -/
theorem exec_new_lengthError {i : Instr} {s t : State} (h : exec i s = .next t)
    (hnew : t.status.errcode = .lengthError) (hold : s.status.errcode ≠ .lengthError) :
    i = .decode ∧ ∃ p, s.pend = some p ∧ p.op = .decode := by
  rcases exec_cases h with ⟨-, -, -, rfl⟩ | ⟨-, op, -, -, rfl⟩ | ⟨-, -, rfl⟩ | ⟨p, d, hp, rfl, -, rfl⟩ | ⟨p, -, -, rfl⟩
  · cases hnew
  · cases hnew
  · cases hnew
  · rcases finish_cases p d s with ⟨out, -, hfin⟩ | ⟨herr, -⟩
    · rw [hfin] at hnew
      cases hnew
    · obtain ⟨hop, -⟩ := transformOf_eq_lengthError_iff.1 herr
      exact ⟨by rw [hop]; rfl, p, hp, hop⟩
  · exact absurd hnew hold

/-- Settles O22: LengthError belongs to a completion; at an issue OP is looked at first and IN_LEN next. -/
theorem errorPriority : Obligations.ErrorPriority := by
  unfold Obligations.ErrorPriority
  refine ⟨fun i s t h hnew hold => exec_new_lengthError h hnew hold, fun s w hp => ?_⟩
  by_cases hres : w.toNat % 4 = 0 ∨ w.toNat % 4 = 3
  · exact ⟨_, exec_reserved_idle (decodeWord_reserved hres) hp, fun _ => rfl, by omega, by omega⟩
  · refine ⟨_, exec_decodeWord_idle hres hp, fun h => absurd h hres, fun _ hgt => ?_, fun _ hle => ?_⟩
    · rw [issue_of_gt _ hgt]
      rfl
    · rw [issue_of_le _ hle]
      exact ⟨rfl, rfl⟩

end Sys2Proof.Machine

namespace Sys2Proof.Machine

/-! ## O4 to O6, O58, O23 to O26: steps of the sequencer (R49, R58, R95 to R103, R116) -/

/-! ### A command as a step -/

/-- Settles O4: a word's lanes decode to the command that the word names, and the CMD write runs it. -/
theorem commandWriteStepIsExec : Obligations.CommandWriteStepIsExec := by
  unfold Obligations.CommandWriteStepIsExec
  intro s w i rest hsch hp hdec
  obtain rfl : decodeWord w = i := by
    rw [decodeBytes_lanesOf_nil] at hdec
    cases hdec
    rfl
  exact step_write_issue hp hsch

/-- Settles O5: in each of the three cases the next action is the codec's turn, which runs the pending command. -/
theorem codecTurnStepIsExec : Obligations.CodecTurnStepIsExec := by
  unfold Obligations.CodecTurnStepIsExec
  intro s p rest hp
  refine ⟨fun hsch => ?_, fun hsch => ?_, fun hsch => ?_⟩
  · exact step_command ((nextAction_nil hsch).trans (codecTurn_some hp))
  · exact step_command ((nextAction_codec hsch).trans (codecTurn_some (s := { s with schedule := rest }) hp))
  · exact step_command ((nextAction_poll hsch).trans ((pollTurn_zero hp rest).trans (codecTurn_some hp)))

/-- Settles O6: the placed event is a CMD write, and the state it is placed in is IDLE. -/
theorem fetchWordStepIsExec : Obligations.FetchWordStepIsExec := by
  unfold Obligations.FetchWordStepIsExec
  intro s nbits w i hdec
  obtain rfl : decodeWord (tableWord nbits w) = i := by
    rw [decodeTableWord_eq] at hdec
    exact Option.some.inj hdec
  exact step_write_issue (s := s.withFetchWord nbits w) (rest := s.schedule) rfl rfl

/-- Settles O58: the codec has no step to take while nothing is pending. -/
theorem idleBlockHoldsItsState : Obligations.IdleBlockHoldsItsState := by
  unfold Obligations.IdleBlockHoldsItsState
  exact fun s rest hp => ⟨step_idle_nil hp,
    fun hsch => step_settled ((nextAction_codec hsch).trans (codecTurn_none (s := { s with schedule := rest }) hp))⟩

/-! ### Steps from IDLE -/

/-- Settles O23: apart from an issue and a reset an IDLE block takes host accesses, which change no result. -/
theorem resultPersistsUntilIssueOrReset : Obligations.ResultPersistsUntilIssueOrReset := by
  unfold Obligations.ResultPersistsUntilIssueOrReset
  intro s t e rest hp hsch hreset hissue h
  rcases step_cases h with ⟨sch, rs, d, rfl, -⟩ | ⟨addr, n, v, rest', off, -, -, -, rfl⟩ | ⟨rest', hsch', -⟩ |
    ⟨v, rest', hsch', -⟩ | ⟨p, sch, hp', -⟩
  · exact ⟨rfl, rfl, rfl, hp⟩
  · simp [hp]
  · rw [hsch] at hsch'
    cases hsch'
    exact absurd rfl hreset
  · rw [hsch] at hsch'
    cases hsch'
    exact absurd rfl (hissue v)
  · rw [hp] at hp'
    cases hp'

/-- From IDLE only an issue that passes its checks leaves the block BUSY (R95, R96). -/
theorem step_idle_busy {s t : State} (hp : s.pend = none) (h : step s = .next t) (hbusy : busy t = true) :
    ∃ w rest, s.schedule = .access (.write (s.cfg.base + 0x0000C) 4 w) :: rest ∧
      (w.toNat % 4 = 1 ∨ w.toNat % 4 = 2) ∧ s.inLen.toNat ≤ s.cfg.ibufSize := by
  obtain ⟨q, hq⟩ := busy_eq_true.1 hbusy
  rcases step_cases h with ⟨sch, rs, d, rfl, -⟩ | ⟨addr, n, v, rest, off, -, -, -, rfl⟩ | ⟨rest, -, rfl⟩ |
    ⟨w, rest, hsch, -, hexec⟩ | ⟨p, sch, hp', -⟩
  · rw [hp] at hq
    cases hq
  · simp [hp] at hq
  · cases hq
  · by_cases hres : w.toNat % 4 = 0 ∨ w.toNat % 4 = 3
    · rw [exec_reserved_idle (decodeWord_reserved hres) (by exact hp)] at hexec
      cases hexec
      cases hq
    · refine ⟨w, rest, hsch, by omega, Nat.le_of_not_lt fun hgt => ?_⟩
      rw [exec_decodeWord_idle hres (by exact hp), issue_of_gt _ (by exact hgt)] at hexec
      cases hexec
      cases hq
  · rw [hp] at hp'
    cases hp'

/-- An issue that passes its checks leaves the block BUSY (R96). -/
theorem step_issue_busy {s t : State} {w : Word} {rest : List Event} (hp : s.pend = none)
    (hsch : s.schedule = .access (.write (s.cfg.base + 0x0000C) 4 w) :: rest)
    (hop : w.toNat % 4 = 1 ∨ w.toNat % 4 = 2) (hlen : s.inLen.toNat ≤ s.cfg.ibufSize) (h : step s = .next t) :
    busy t = true := by
  rw [step_write_issue hp hsch, exec_decodeWord_idle (by omega) (by exact hp), issue_of_le _ (by exact hlen)] at h
  cases h
  rfl

/-! ### Steps from BUSY -/

@[simp] theorem finish_pend (r : CmdResult) (s : State) : (finish r s).pend = none := by cases r <;> rfl

/-- The schedules whose next step ends a pending command: it is the codec's turn (log 2, log 3) or a reset. -/
def EndsPending (sch : List Event) : Prop :=
  sch = [] ∨ (∃ rest, sch = .codec :: rest) ∨ (∃ rest, sch = .poll 0 :: rest) ∨ ∃ rest, sch = .reset :: rest

theorem not_endsPending_access (a : Access) (rest : List Event) : ¬ EndsPending (.access a :: rest) := by
  simp [EndsPending]

theorem not_endsPending_poll_succ (n : Nat) (rest : List Event) : ¬ EndsPending (.poll (n + 1) :: rest) := by
  simp [EndsPending]

/-- A step from BUSY ends the pending command, or leaves the whole block as it was (R95, R99). -/
theorem step_busy_cases {s t : State} {p : Pend} (hp : s.pend = some p) (h : step s = .next t) :
    (EndsPending s.schedule ∧ t.pend = none) ∨ (¬ EndsPending s.schedule ∧ SameBlock s t) := by
  rcases step_cases h with ⟨sch, rs, d, rfl, hp' | ⟨a, rest, hsch⟩ | ⟨n, rest, hsch⟩⟩ |
    ⟨addr, n, v, rest, off, hsch, -, -, rfl⟩ | ⟨rest, hsch, rfl⟩ | ⟨v, rest, -, hp', -⟩ | ⟨q, sch, hq, hsch, hexec⟩
  · rw [hp] at hp'
    cases hp'
  · exact .inr ⟨hsch ▸ not_endsPending_access a rest, SameBlock.host s sch rs d⟩
  · exact .inr ⟨hsch ▸ not_endsPending_poll_succ n rest, SameBlock.host s sch rs d⟩
  · rw [memWrite_busy (s := { s with schedule := rest }) (busy_eq_true.2 ⟨p, hp⟩)]
    exact .inr ⟨hsch ▸ not_endsPending_access _ rest, SameBlock.host s _ _ _⟩
  · exact .inl ⟨.inr (.inr (.inr ⟨rest, hsch⟩)), rfl⟩
  · rw [hp] at hp'
    cases hp'
  · obtain ⟨d, -, rfl⟩ := exec_pending_next (s := { s with schedule := sch, draws := s.draws + 1 }) hq hexec
    exact .inl ⟨hsch.imp_right fun hturn => hturn.imp_right .inl, finish_pend _ _⟩

/-- Settles O25: a step from BUSY that does not end the pending command leaves the block as it was. -/
theorem pendingCommandIsFrozen : Obligations.PendingCommandIsFrozen := by
  unfold Obligations.PendingCommandIsFrozen
  intro s t hbusy h hbusy'
  obtain ⟨p, hp⟩ := busy_eq_true.1 hbusy
  rcases step_busy_cases hp h with ⟨-, hnone⟩ | ⟨-, hsame⟩
  · rw [busy_eq_false.2 hnone] at hbusy'
    cases hbusy'
  · exact hsame

/-- Settles O24: the moves from IDLE are those of an issue, and the moves from BUSY those of the codec's turn and a reset. -/
theorem sequencerMoves : Obligations.SequencerMoves := by
  unfold Obligations.SequencerMoves
  intro s t h
  refine ⟨fun hidle => ⟨step_idle_busy (busy_eq_false.1 hidle) h, ?_⟩, fun hbusy => ?_, ?_, ?_⟩
  · rintro ⟨w, rest, hsch, hop, hlen⟩
    exact step_issue_busy (busy_eq_false.1 hidle) hsch hop hlen h
  · obtain ⟨p, hp⟩ := busy_eq_true.1 hbusy
    rcases step_busy_cases hp h with ⟨hends, hnone⟩ | ⟨hstays, hsame⟩
    · exact iff_of_true (busy_eq_false.2 hnone) hends
    · exact iff_of_false (by rw [hsame.busy, hbusy]; nofun) hstays
  · rintro ⟨rest, hsch⟩
    rw [step_reset hsch] at h
    cases h
    rfl
  · rw [statusWord_busy, busy_eq_true]

/-! ### POLL -/

/-- A read of STATUS answers STATUS and changes nothing else (R42, R44). -/
theorem hostRead_status (s : State) :
    hostRead statusOffset 4 s = { s with responses := .data (statusWord s) :: s.responses } := by
  rw [hostRead_eq, if_pos (by decide), afterRead_draws statusOffset s (.inr (.inl (by decide)))]
  rfl

theorem step_poll_idle {s : State} {n : Nat} {rest : List Event} (hp : s.pend = none)
    (hsch : s.schedule = .poll n :: rest) :
    step s = .next { s with schedule := rest, responses := .data (statusWord s) :: s.responses } :=
  step_settled ((nextAction_poll hsch).trans ((pollTurn_idle hp n rest).trans (congrArg _ (hostRead_status _))))

theorem step_poll_busy {s : State} {p : Pend} {n : Nat} {rest : List Event} (hp : s.pend = some p)
    (hsch : s.schedule = .poll (n + 1) :: rest) :
    step s = .next { s with schedule := .poll n :: rest, responses := .data (statusWord s) :: s.responses } :=
  step_settled ((nextAction_poll hsch).trans ((pollTurn_succ hp n rest).trans (congrArg _ (hostRead_status _))))

/-- The POLL at the head of the schedule of `s` ends in `k` steps: its last read of STATUS has returned BUSY = 0, and a command
that was pending, or was done already, is done. -/
def PollEndsIn (k : Nat) (s : State) (rest : List Event) : Prop :=
  ∃ t v older, Host.Core.run Sys2Proof.core k s = .next t ∧ t.schedule = rest ∧
    t.responses = .data v :: older ∧ v = statusWord t ∧ v.getLsbD 0 = false ∧ busy t = false ∧
    (busy s = true ∨ s.status.done = true → t.status.done = true)

/-- While IDLE the first read ends the POLL (R58). -/
theorem pollEndsIn_idle {s : State} {n : Nat} {rest : List Event} (hp : s.pend = none)
    (hsch : s.schedule = .poll n :: rest) : PollEndsIn 1 s rest := by
  have hidle : busy s = false := busy_eq_false.2 hp
  refine ⟨_, statusWord s, s.responses, run_next Sys2Proof.core 0 s _ (step_poll_idle hp hsch), rfl, rfl, rfl,
    (statusWord_busy s).trans hidle, hidle, fun h => ?_⟩
  exact h.resolve_left (by rw [hidle]; nofun)

/-- A step before the end of a POLL, after which the command is still pending or is done. -/
theorem PollEndsIn.step {k : Nat} {s s' : State} {rest : List Event} (hstep : Machine.step s = .next s')
    (hdone : busy s' = true ∨ s'.status.done = true) (h : PollEndsIn k s' rest) : PollEndsIn (k + 1) s rest := by
  obtain ⟨t, v, older, hrun, hsch, hresp, hv, hbit, hidle, hd⟩ := h
  exact ⟨t, v, older, (run_next Sys2Proof.core k s s' hstep).trans hrun, hsch, hresp, hv, hbit, hidle, fun _ => hd hdone⟩

@[simp] theorem finish_schedule (r : CmdResult) (s : State) : (finish r s).schedule = s.schedule := by cases r <;> rfl

/-- A completion sets DONE, with or without an error (R98, R110). -/
@[simp] theorem finish_done (r : CmdResult) (s : State) : (finish r s).status.done = true := by cases r <;> rfl

/-- A POLL that waits no longer gives the codec its turn, which completes the command: the next read ends the POLL. -/
theorem pollEndsIn_two {s : State} {p : Pend} {d : List Byte} {rest : List Event} (hp : s.pend = some p)
    (hsch : s.schedule = .poll 0 :: rest) (hd : inputOf p s = some d) : PollEndsIn 2 s rest := by
  have hturn : nextAction s = .command (opInstr p.op) (nextDraw s) :=
    (nextAction_poll hsch).trans ((pollTurn_zero hp rest).trans (codecTurn_some hp))
  have hstep := (step_command hturn).trans (exec_pending_input (nextDraw s) p d hp hd)
  refine PollEndsIn.step hstep (.inr (finish_done _ _)) (pollEndsIn_idle (n := 0) (finish_pend _ _) ?_)
  rw [finish_schedule, nextDraw_schedule, hsch]

/-- A POLL ends: at once while IDLE, else after its busy reads, the codec's step and one more read. -/
theorem poll_ends {n : Nat} {s : State} {rest : List Event} (hsch : s.schedule = .poll n :: rest)
    (hinput : ∀ p, s.pend = some p → ∃ d, inputOf p s = some d) : ∃ k, 1 ≤ k ∧ k ≤ n + 2 ∧ PollEndsIn k s rest := by
  induction n generalizing s with
  | zero =>
    cases hp : s.pend with
    | none => exact ⟨1, by omega, by omega, pollEndsIn_idle hp hsch⟩
    | some p =>
      obtain ⟨d, hd⟩ := hinput p hp
      exact ⟨2, by omega, by omega, pollEndsIn_two hp hsch hd⟩
  | succ n ih =>
    cases hp : s.pend with
    | none => exact ⟨1, by omega, by omega, pollEndsIn_idle hp hsch⟩
    | some p =>
      obtain ⟨k, hlo, hhi, hends⟩ := ih
        (s := { s with schedule := .poll n :: rest, responses := .data (statusWord s) :: s.responses }) rfl hinput
      exact ⟨k + 1, by omega, by omega, hends.step (step_poll_busy hp hsch) (.inl (busy_eq_true.2 ⟨p, hp⟩))⟩

/-- Settles O26: a POLL ends in at most `n + 2` steps, as a written input is found. -/
theorem pollEndsWithBusyClear : Obligations.PollEndsWithBusyClear := by
  unfold Obligations.PollEndsWithBusyClear
  intro s n rest hsch hwritten
  have hinput : ∀ p, s.pend = some p → ∃ d, inputOf p s = some d := fun p hp =>
    Option.ne_none_iff_exists'.1 fun hnone => by
      obtain ⟨a, ha, hfree⟩ := inputOf_eq_none.1 hnone
      have hsome := hwritten p hp a ha
      rw [hfree] at hsome
      cases hsome
  obtain ⟨k, hlo, hhi, t, v, older, hrun, hrest, hresp, hv, hbit, hidle, hdone⟩ := poll_ends hsch hinput
  exact ⟨k, t, v, older, hlo, hhi, hrun, hrest, hresp, hv, hbit, hidle, fun hbusy => hdone (.inl hbusy)⟩

end Sys2Proof.Machine

namespace Sys2Proof.Machine

/-! ## O50 and O52 to O57: the host's accesses (R33 to R44, R99, R100); O27: the registers after reset (R31) -/

/-! ### Outside the window -/

/-- No access outside the window is the block's (R33, log 6). -/
theorem step_outside_window {s : State} {addr size : Nat} {v : Word} {a : Access} {rest : List Event}
    (hout : windowOffset s.cfg addr = none) (ha : a = .read addr size ∨ a = .write addr size v)
    (hsch : s.schedule = .access a :: rest) : step s = .refused .outsideWindow := by
  refine step_refused ((nextAction_access hsch).trans ?_)
  rcases ha with rfl | rfl <;> simp only [hostAccess, hout]

/-- Settles O50: the address has no window offset. -/
theorem accessOutsideWindowRefused : Obligations.AccessOutsideWindowRefused := by
  unfold Obligations.AccessOutsideWindowRefused
  exact fun s rest addr size v a haddr ha hsch => step_outside_window (windowOffset_outside s.cfg addr haddr) ha hsch

/-! ### Registers -/

/-- A register write while IDLE is answered, and stores by the register's own rule (R42). -/
theorem step_write_register {s : State} {off : Nat} {v : Word} {rest : List Event} (hp : s.pend = none)
    (hoff : off < 0x10000) (halign : off % 4 = 0) (hcmd : off ≠ 0x0000C)
    (hsch : s.schedule = .access (.write (s.cfg.base + off) 4 v) :: rest) :
    step s = .next (nextDraw (respond .written (regWrite { s with schedule := rest } off v))) := by
  have hl : accessLegal off 4 = true := (accessLegal_iff off 4).2 (.inl ⟨hoff, rfl, halign⟩)
  rw [step_write_store (Nat.lt_trans hoff (by decide)) hl (.inl hcmd) hsch,
    memWrite_register (busy_eq_false.2 (by exact hp)) hoff]

/-- Settles O52: each register's write replaces its own field, which then reads the word, CTRL without its reserved bits. -/
theorem registerWritesStore : Obligations.RegisterWritesStore := by
  unfold Obligations.RegisterWritesStore
  intro s rest v hp
  refine ⟨fun hsch => ?_, fun hsch => ?_, fun hsch => ?_⟩
  · exact ⟨_, step_write_register hp (by decide) (by decide) (by decide) hsch, ctrlWord_ctrlOfWord v, rfl, rfl,
      SameBlock.host { s with ctrl := ctrlOfWord v } _ _ _, rfl, rfl⟩
  · exact ⟨_, step_write_register hp (by decide) (by decide) (by decide) hsch, rfl,
      SameBlock.host { s with lineLen := v } _ _ _, rfl, rfl⟩
  · exact ⟨_, step_write_register hp (by decide) (by decide) (by decide) hsch, rfl,
      SameBlock.host { s with inLen := v } _ _ _, rfl, rfl⟩

theorem memRead_register (s : State) {off : Nat} (hoff : off < 0x10000) (n : Nat) : memRead s off n = regRead s off :=
  if_pos hoff

/-- A register read is answered with the register's value and changes nothing of the block (R42, R44). -/
theorem step_read_register {s : State} {off : Nat} {rest : List Event} (hoff : off < 0x10000) (halign : off % 4 = 0)
    (hsch : s.schedule = .access (.read (s.cfg.base + off) 4) :: rest) :
    step s = .next { s with schedule := rest, responses := .data (regRead s off) :: s.responses } := by
  have hl : accessLegal off 4 = true := (accessLegal_iff off 4).2 (.inl ⟨hoff, rfl, halign⟩)
  rw [step_read_legal (Nat.lt_trans hoff (by decide)) hl hsch, memRead_register s hoff,
    afterRead_draws off { s with schedule := rest } (.inr (.inl (Nat.lt_trans hoff (by decide))))]

/-- Bits 31:2 of CTRL read 0 (R16, R32). -/
theorem ctrlWord_toNat_lt (c : Ctrl) : (ctrlWord c).toNat < 4 := by
  obtain ⟨variant, padding⟩ := c
  cases variant <;> cases padding <;> decide

/-- The fields of STATUS, with bit 3 reserved (R20). -/
theorem statusWord_fields (s : State) :
    (statusWord s).getLsbD 1 = s.status.done ∧ (statusWord s).getLsbD 2 = s.status.err ∧
    (statusWord s).toNat / 16 = (errNumber s.status.errcode).toNat ∧ (statusWord s).getLsbD 3 = false := by
  unfold statusWord
  generalize busy s = b
  obtain ⟨done, err, e⟩ := s.status
  revert b done err
  cases e <;> decide

/-- The offsets above OUT_LEN are reserved, and read 0 (R34, R42). -/
theorem regRead_reserved (s : State) {off : Nat} (h : 0x00018 ≤ off) : regRead s off = 0#32 := by
  unfold regRead ctrlOffset lineLenOffset inLenOffset cmdOffset statusOffset outLenOffset
  rw [if_neg (by omega), if_neg (by omega), if_neg (by omega), if_neg (by omega), if_neg (by omega), if_neg (by omega)]

/-- Settles O53: the answer is the register's value, row by row. -/
theorem registerReadsReturnValues : Obligations.RegisterReadsReturnValues := by
  unfold Obligations.RegisterReadsReturnValues
  intro s rest off hoff halign hsch
  refine ⟨_, regRead s off, step_read_register hoff halign hsch, rfl, rfl, SameBlock.host s _ _ _, ?_⟩
  refine ⟨?_, ?_, ?_, ?_, ?_, ?_, regRead_reserved s⟩ <;> rintro rfl
  · exact ⟨rfl, ctrlWord_toNat_lt s.ctrl⟩
  · rfl
  · rfl
  · rfl
  · exact ⟨statusWord_busy s, statusWord_fields s⟩
  · rfl

/-- Settles O27: the values of R31, and two empty buffers. -/
theorem resetStateHoldsSpecValues : Obligations.ResetStateHoldsSpecValues := by
  unfold Obligations.ResetStateHoldsSpecValues
  exact ⟨ctrlWord_reset, rfl, rfl, rfl, by decide, rfl, rfl, memLookup_nil, memLookup_nil⟩

/-! ### A byte of the buffer space, by its row of the address map -/

theorem bufferByte_ibuf {s : State} {off : Nat} {b : Byte} (hoff : off < 0x20000) (hin : off - 0x10000 < s.cfg.ibufSize)
    (hb : memLookup s.ibuf (off - 0x10000) = some b) : bufferByte s off = b := by
  have hget : (memLookup s.ibuf (off - ibufOffset)).getD (Config.freeByte s.draws off) = b := by
    rw [show ibufOffset = 0x10000 from rfl, hb, Option.getD_some]
  exact (if_pos hoff).trans ((if_pos hin).trans hget)

theorem bufferByte_beyond_ibuf {s : State} {off : Nat} (hoff : off < 0x20000) (hout : s.cfg.ibufSize ≤ off - 0x10000) :
    bufferByte s off = 0#8 :=
  (if_pos hoff).trans (if_neg (Nat.not_lt.2 hout))

theorem bufferByte_reserved {s : State} {off : Nat} (hlo : 0x20000 ≤ off) (hhi : off < 0x40000) : bufferByte s off = 0#8 :=
  (if_neg (Nat.not_lt.2 hlo)).trans (if_pos hhi)

theorem bufferByte_obuf {s : State} {off : Nat} {b : Byte} (hoff : 0x40000 ≤ off) (hin : off - 0x40000 < s.cfg.obufSize)
    (hidle : busy s = false) (hb : memLookup s.obuf (off - 0x40000) = some b) : bufferByte s off = b := by
  have hget : (memLookup s.obuf (off - obufOffset)).getD (Config.freeByte s.draws off) = b := by
    rw [show obufOffset = 0x40000 from rfl, hb, Option.getD_some]
  exact (if_neg (Nat.not_lt.2 (Nat.le_trans (by decide) hoff))).trans ((if_neg (Nat.not_lt.2 hoff)).trans
    ((if_pos hin).trans ((if_neg (by rw [hidle]; nofun)).trans hget)))

theorem bufferByte_beyond_obuf {s : State} {off : Nat} (hoff : 0x40000 ≤ off) (hout : s.cfg.obufSize ≤ off - 0x40000) :
    bufferByte s off = 0#8 :=
  (if_neg (Nat.not_lt.2 (Nat.le_trans (by decide) hoff))).trans ((if_neg (Nat.not_lt.2 hoff)).trans
    (if_neg (Nat.not_lt.2 hout)))

/-- Settles O55: lane `k` is the byte at offset `off + k`, and 0 above the size. -/
theorem bufferReadsAreLittleEndian : Obligations.BufferReadsAreLittleEndian := by
  unfold Obligations.BufferReadsAreLittleEndian
  intro s rest off size hlo hhi hsize halign hsch
  have hl : accessLegal off size = true := (accessLegal_iff off size).2 (.inr ⟨hlo, hsize, halign⟩)
  refine ⟨_, memRead s off size, step_read_legal hhi hl hsch, rfl, rfl, SameBlock.host s _ _ _, fun k hk => ?_⟩
  rw [laneOf_memRead s off size k hlo hk]
  refine ⟨fun hout => if_neg (Nat.not_lt.2 hout), fun hin => ?_⟩
  rw [if_pos hin]
  exact ⟨bufferByte_beyond_ibuf, fun b => bufferByte_ibuf, bufferByte_reserved, fun b => bufferByte_obuf,
    bufferByte_beyond_obuf⟩

/-! ### Reads while BUSY -/

/-- In reachable states STATUS reads 1 while BUSY (R100). -/
theorem Inv.statusWord_busy {s : State} (hi : Inv s) (hbusy : busy s = true) : statusWord s = 0x00000001#32 := by
  obtain ⟨p, hp⟩ := busy_eq_true.1 hbusy
  rw [statusWord, hbusy, hi.busy_status hp]
  rfl

/-- A byte read answers the byte in bits 7:0 (R38). -/
theorem memRead_byte (s : State) {off : Nat} (hoff : 0x10000 ≤ off) : memRead s off 1 = (bufferByte s off).setWidth 32 := by
  refine (if_neg (Nat.not_lt.2 hoff)).trans ?_
  simp [bufferBytes, wordOfBytes]

/-- A read of OBUF while BUSY is a draw (R41, R100). -/
theorem afterRead_obuf_busy {s : State} {off : Nat} (hoff : 0x40000 ≤ off) (hin : off - 0x40000 < s.cfg.obufSize)
    (hbusy : busy s = true) : afterRead s off = nextDraw s := if_pos ⟨hoff, hin, hbusy⟩

/-- A byte read of the buffer space is legal at every offset (R36, R44). -/
theorem step_read_byte {s : State} {off : Nat} {rest : List Event} (hlo : 0x10000 ≤ off) (hhi : off < 0x80000)
    (hsch : s.schedule = .access (.read (s.cfg.base + off) 1) :: rest) :
    step s = .next { s with
      schedule := rest, responses := .data ((bufferByte s off).setWidth 32) :: s.responses,
      draws := (afterRead { s with schedule := rest } off).draws } := by
  have hl : accessLegal off 1 = true := (accessLegal_iff off 1).2 (.inr ⟨hlo, .inl rfl, Nat.mod_one off⟩)
  rw [step_read_legal hhi hl hsch, memRead_byte s hlo]

/-- Settles O54: two registers, of which the invariant says what they read, a byte of IBUF and a draw for a byte of OBUF. -/
theorem readsWhileBusy : Obligations.ReadsWhileBusy := by
  unfold Obligations.ReadsWhileBusy
  intro s rest off hi hbusy
  obtain ⟨-, ⟨-, hib⟩, ⟨-, hob⟩, -⟩ := (Config.wellFormed_iff s.cfg).1 hi.config
  refine ⟨fun hsch => ?_, fun hsch => ?_, fun b hb hsch => ?_, fun hoff hsch => ?_⟩
  · have hstep := step_read_register (by decide) (by decide) hsch
    have hone : regRead s 0x00010 = 0x00000001#32 := hi.statusWord_busy hbusy
    rw [hone] at hstep
    exact ⟨_, hstep, rfl, SameBlock.host s _ _ _⟩
  · have hstep := step_read_register (by decide) (by decide) hsch
    have hzero : regRead s 0x00014 = 0#32 := hi.busy_outLen hbusy
    rw [hzero] at hstep
    exact ⟨_, hstep, rfl, SameBlock.host s _ _ _⟩
  · have hin : off < s.cfg.ibufSize := hi.ibuf_bound _ (mem_of_memLookup hb)
    rw [Nat.add_assoc] at hsch
    have hstep := step_read_byte (by omega) (by omega) hsch
    rw [bufferByte_ibuf (b := b) (by omega) (by omega) (by rwa [Nat.add_sub_cancel_left])] at hstep
    exact ⟨_, hstep, rfl, SameBlock.host s _ _ _⟩
  · rw [Nat.add_assoc] at hsch
    refine ⟨_, _, step_read_byte (by omega) (by omega) hsch, rfl, ?_, SameBlock.host s _ _ _, ?_⟩
    · rw [BitVec.toNat_setWidth]
      have := (bufferByte s (0x40000 + off)).isLt
      omega
    · rw [afterRead_obuf_busy (by omega) (by simpa using hoff) (by exact hbusy)]
      rfl

/-! ### Writes of IBUF -/

/-- Settles O56: the bytes of the write inside the buffer hold their lanes, and those below, above and beyond are as before. -/
theorem ibufWritesStoreTheirLanes : Obligations.IbufWritesStoreTheirLanes := by
  unfold Obligations.IbufWritesStoreTheirLanes
  intro s rest off size v hlo hhi hsize halign hp hsch
  have hl : accessLegal off size = true := (accessLegal_iff off size).2 (.inr ⟨hlo, hsize, halign⟩)
  have hstep := step_write_store (Nat.lt_trans hhi (by decide)) hl (.inl (by omega)) hsch
  rw [memWrite_buffer (busy_eq_false.2 (by exact hp)) hlo, bufferWrite_eq] at hstep
  have hibuf := fun i => memLookup_bufferWrite { s with schedule := rest } off v size i hlo
  refine ⟨_, hstep, rfl, rfl, ⟨rfl, rfl, rfl, rfl, rfl, rfl, rfl, rfl, rfl⟩, fun k hk hin => ?_, fun i hi => ?_⟩
  · have hwindow : off - 0x10000 + k < 0x10000 := by rcases hsize with rfl | rfl | rfl <;> omega
    refine (hibuf _).trans ((if_pos ⟨by omega, by omega, hin, hwindow⟩).trans ?_)
    rw [Nat.add_sub_cancel_left]
  · refine (hibuf i).trans (if_neg ?_)
    rintro ⟨hge, hlt, hsize', -⟩
    simp only at hsize'
    omega

/-! ### Reads made twice -/

/-- What the bus answers to a read (R37, R38). -/
def readAnswer (s : State) (off size : Nat) : Response :=
  if accessLegal off size then .data (memRead s off size) else .busError

/-- The answer does not depend on what the host will do or has read. -/
theorem readAnswer_host (s : State) (sch : List Event) (rs : List Response) (off size : Nat) :
    readAnswer { s with schedule := sch, responses := rs } off size = readAnswer s off size := by
  unfold readAnswer
  rw [memRead_host s sch rs]

/-- A read that is no draw is answered and leaves the block and the draw counter (R44). -/
theorem step_read_answer {s : State} {addr size off : Nat} {rest : List Event} (hw : windowOffset s.cfg addr = some off)
    (hsch : s.schedule = .access (.read addr size) :: rest)
    (hstable : busy s = false ∨ off < 0x40000 ∨ 0x40000 + s.cfg.obufSize ≤ off) :
    step s = .next { s with schedule := rest, responses := readAnswer s off size :: s.responses } := by
  obtain ⟨rfl, hoff⟩ := windowOffset_eq_some hw
  unfold readAnswer
  cases hl : accessLegal off size with
  | true => rw [step_read_legal hoff hl hsch, afterRead_draws off { s with schedule := rest } hstable, if_pos rfl]
  | false => rw [step_read_illegal hoff hl hsch, if_neg nofun]

/-- Settles O57: the second read is made of the same block with the same draw counter. -/
theorem readsAreRepeatable : Obligations.ReadsAreRepeatable := by
  unfold Obligations.ReadsAreRepeatable
  intro s t u rest addr size hsch hstable ht hu
  cases hw : windowOffset s.cfg addr with
  | none =>
    rw [step_outside_window (v := 0#32) hw (.inl rfl) hsch] at ht
    cases ht
  | some off =>
    obtain ⟨haddr, -⟩ := windowOffset_eq_some hw
    have hstable' : busy s = false ∨ off < 0x40000 ∨ 0x40000 + s.cfg.obufSize ≤ off :=
      hstable.imp_right fun h => by omega
    rw [step_read_answer hw hsch hstable'] at ht
    cases ht
    rw [step_read_answer (s := { s with schedule := .access (.read addr size) :: rest, responses := _ }) hw rfl hstable'] at hu
    cases hu
    exact ⟨SameBlock.host s _ _ _, SameBlock.host _ _ _ _, rfl, rfl, _, rfl,
      congrArg (· :: _) (readAnswer_host s _ _ off size)⟩

end Sys2Proof.Machine
